-- ==== Sys2Proof/Word.lean ====
section
/-! DEFINITION. The three widths of the machine (00_scope.md R8): the 4-bit register index, the 8-bit memory unit
and opcode, the 16-bit register and immediate. -/

namespace Sys2Proof

/-- A 4-bit field: a register index or half of an opcode byte (R8, R10). -/
abbrev Nibble := BitVec 4

/-- The memory unit, an opcode, a SYS sub-op (R8). -/
abbrev Byte := BitVec 8

/-- A register value, an immediate, a branch target (R8, R11). -/
abbrev Word := BitVec 16

end Sys2Proof
end

