-- ==== Sys2Proof/Config.lean ====
section
/-! DEFINITION. What is fixed for one machine: the parameters of 00_scope.md R9 as plain data, and what the spec leaves
open, the text of a diagnostic and the contents of a machine at a MemFault, as functions with no body. The default
values stand in Machine/Params.lean. -/

namespace Sys2Proof

/-- The sixteen mnemonics of the opcode map (30_encoding.md R86), the reserved ADD among them. -/
inductive Mnemonic where
  | nop | sys | push | pushi | pop | add | addi
  | branch | branchLessThan | branchGreaterThan | branchEqualTo | branchNotEqualTo
  | cmp | cmpi | andi | ori
  deriving DecidableEq, Repr

/-- `OPCODE_MAP` (R9, R86): the low nibble of each mnemonic whose low nibble the source leaves open. The high
nibbles, and the whole bytes of NOP and SYS, are fixed by the source and stand in `opcodeByte`. -/
structure OpcodeMap where
  push : Nibble
  pushi : Nibble
  pop : Nibble
  add : Nibble
  addi : Nibble
  branch : Nibble
  branchLessThan : Nibble
  branchGreaterThan : Nibble
  branchEqualTo : Nibble
  branchNotEqualTo : Nibble
  cmp : Nibble
  cmpi : Nibble
  andi : Nibble
  ori : Nibble
  deriving DecidableEq, Repr

/-- `REG_BYTE_HIGH_NIBBLE` (30_encoding.md R82): what a non-zero high nibble of a register byte does. -/
inductive RegByteHighNibble where
  | ignore | invalid | refuse
  deriving DecidableEq, Repr

/-- `CMP_MODE` (42_alu.md R172): how a comparison forms its difference. -/
inductive CmpMode where
  | unsigned | signed16 | wrap16
  deriving DecidableEq, Repr

/-- The parameters of R9 that an instruction's meaning reads. -/
structure Params where
  opcodeMap : OpcodeMap
  regByteHighNibble : RegByteHighNibble
  cmpMode : CmpMode
  deriving DecidableEq, Repr

/-- The premises of a launch (70_reset_and_hazards.md R276): `MEM_SIZE`, `SP_INIT`, `BP_INIT`, `LOAD_ADDR`, `IMAGE`
and the parameters. The range of `MEM_SIZE` (0 to 65536, R9) is its type. -/
structure Launch where
  memSize : Fin 65537
  spInit : Word
  bpInit : Word
  loadAddr : Nat
  image : List Byte
  params : Params
  deriving DecidableEq, Repr

/-- `DIAG_FORMAT` (R9, 92_eei_decisions.md D16) is OPEN: the text of an InvalidRegister report, as a free value.
UNVERIFIED by design, log 17: no statement can know it. Safe. -/
opaque Config.invalidRegisterText : Nibble → List Byte

/-- `DIAG_FORMAT` (R9, D16) is OPEN: the text of an UnknownOpcode report, as a free value (log 17). Safe. -/
opaque Config.unknownOpcodeText : Byte → List Byte

/-- `DIAG_FORMAT` (R9, D16) is OPEN: the text of a trace, from the values of x0, x1, x2, x3, sp, bp, pc in that order
and the flag byte, as a free value (log 17). Safe. -/
opaque Config.traceText : List Word → Byte → List Byte

/-- The contents of a register at a MemFault, unspecified for claims (40_fetch_decode.md R123, 92_eei_decisions.md D6):
a free value, from the session's seed and the register's index (log 28). Safe. -/
opaque Config.faultReg : Nat → Nibble → Word

/-- The flag byte at a MemFault, unspecified for claims (R123, D6): a free value (log 28). Safe. -/
opaque Config.faultFlags : Nat → Byte

/-- The byte of memory at an address at a MemFault, unspecified for claims (R123, D6): a free value (log 28). Safe. -/
opaque Config.faultByte : Nat → Nat → Byte

end Sys2Proof
end

