-- ==== Sys2Proof/Machine/Params.lean ====
section
/-! DEFINITION. The values of the parameters: the opcode byte of each mnemonic under an opcode map, and the defaults
of 00_scope.md R9. -/

namespace Sys2Proof

/-- The mnemonics in the order of the table of 30_encoding.md R86. -/
def allMnemonics : List Mnemonic :=
  [.nop, .sys, .push, .pushi, .pop, .add, .addi, .branch, .branchLessThan, .branchGreaterThan,
   .branchEqualTo, .branchNotEqualTo, .cmp, .cmpi, .andi, .ori]

/-- The opcode byte of a mnemonic: the family nibble the source fixes (push 1, pop 2, add 3, branch 5, compare 6,
and-immediate 7, or-immediate 8) over the map's low nibble; NOP and SYS are whole bytes (R86). -/
def opcodeByte (m : OpcodeMap) : Mnemonic → Byte
  | .nop => 0x00#8
  | .sys => 0x04#8
  | .push => 0x1#4 ++ m.push
  | .pushi => 0x1#4 ++ m.pushi
  | .pop => 0x2#4 ++ m.pop
  | .add => 0x3#4 ++ m.add
  | .addi => 0x3#4 ++ m.addi
  | .branch => 0x5#4 ++ m.branch
  | .branchLessThan => 0x5#4 ++ m.branchLessThan
  | .branchGreaterThan => 0x5#4 ++ m.branchGreaterThan
  | .branchEqualTo => 0x5#4 ++ m.branchEqualTo
  | .branchNotEqualTo => 0x5#4 ++ m.branchNotEqualTo
  | .cmp => 0x6#4 ++ m.cmp
  | .cmpi => 0x6#4 ++ m.cmpi
  | .andi => 0x7#4 ++ m.andi
  | .ori => 0x8#4 ++ m.ori

/-- The default `OPCODE_MAP` (R86): variant 0 the plain form, 1 the immediate form, branches 0 to 4.
UNVERIFIED (the spec's decision D3), unsafe for a claim about bytes, log 5. -/
def defaultOpcodeMap : OpcodeMap where
  push := 0x0#4
  pushi := 0x1#4
  pop := 0x0#4
  add := 0x0#4
  addi := 0x1#4
  branch := 0x0#4
  branchLessThan := 0x1#4
  branchGreaterThan := 0x2#4
  branchEqualTo := 0x3#4
  branchNotEqualTo := 0x4#4
  cmp := 0x0#4
  cmpi := 0x1#4
  andi := 0x1#4
  ori := 0x1#4

/-- The default parameters of R9. UNVERIFIED (decisions D3, D4, D5), unsafe for a claim that rests on one of the
defaults, logs 5, 6, 7. -/
def defaultParams : Params where
  opcodeMap := defaultOpcodeMap
  regByteHighNibble := .ignore
  cmpMode := .unsigned

/-- The launch behind `State.reset`: the parameters of R9 at their defaults, no image, and for the two that have no
default the model's own values `MEM_SIZE` = 65536 (DESIGN CHOICE, unsafe, log 1) and `SP_INIT` = 0 (DESIGN CHOICE,
unsafe, log 2). -/
def defaultLaunch : Launch where
  memSize := 65536
  spInit := 0x0000#16
  bpInit := 0x0000#16
  loadAddr := 0
  image := []
  params := defaultParams

end Sys2Proof
end

