-- ==== Sys2Proof/Syntax.lean ====
section
/-! DEFINITION. The instructions: one constructor for each row of spec/opcode_table.json, with every operand bit the
encoding of that row carries (30_encoding.md R81). -/

namespace Sys2Proof

/-- An instruction. `h` and `r` are the high and low nibble of a register byte (R82), `s` and `d` the two indices of
CMP (R83), `imm` and `t` a 16-bit immediate or branch target (R84), `n` the SYS sub-op (R90). A register index stays
a number here: indices 0 and 8 to 15 are encodings with a defined effect (R91). -/
inductive Instr where
  /-- NOP, format N (R119). -/
  | nop
  /-- SYS n, format S (R210). -/
  | sys (n : Byte)
  /-- PUSH r, format R (R142). -/
  | push (h r : Nibble)
  /-- PUSHI imm, format I (R143). -/
  | pushi (imm : Word)
  /-- POP r, format R (R144). -/
  | pop (h r : Nibble)
  /-- ADD, reserved, format N (R161). -/
  | add
  /-- ADDI r, imm, format IR (R160). -/
  | addi (imm : Word) (h r : Nibble)
  /-- BRANCH t, format I (R192). -/
  | branch (t : Word)
  /-- BRANCH_LESS_THAN t, format I (R193). -/
  | branchLessThan (t : Word)
  /-- BRANCH_GREATER_THAN t, format I (R194). -/
  | branchGreaterThan (t : Word)
  /-- BRANCH_EQUAL_TO t, format I (R195). -/
  | branchEqualTo (t : Word)
  /-- BRANCH_NOT_EQUAL_TO t, format I (R196). -/
  | branchNotEqualTo (t : Word)
  /-- CMP s, d, format RR (R162). -/
  | cmp (s d : Nibble)
  /-- CMPI r, imm, format IR (R163). -/
  | cmpi (imm : Word) (h r : Nibble)
  /-- ANDI r, imm, format IR (R164). -/
  | andi (imm : Word) (h r : Nibble)
  /-- ORI r, imm, format IR (R165). -/
  | ori (imm : Word) (h r : Nibble)
  deriving DecidableEq, Repr

/-- The mnemonic of an instruction. -/
def Instr.mnemonic : Instr → Mnemonic
  | .nop => .nop
  | .sys _ => .sys
  | .push _ _ => .push
  | .pushi _ => .pushi
  | .pop _ _ => .pop
  | .add => .add
  | .addi _ _ _ => .addi
  | .branch _ => .branch
  | .branchLessThan _ => .branchLessThan
  | .branchGreaterThan _ => .branchGreaterThan
  | .branchEqualTo _ => .branchEqualTo
  | .branchNotEqualTo _ => .branchNotEqualTo
  | .cmp _ _ => .cmp
  | .cmpi _ _ _ => .cmpi
  | .andi _ _ _ => .andi
  | .ori _ _ _ => .ori

end Sys2Proof
end

