-- ==== Sys2Proof/WellFormed.lean ====
section
/-! DEFINITION. The checks on what a machine is given: the opcode map, an instruction under a map, a launch. -/

namespace Sys2Proof

/-- An opcode map is well formed when no two mnemonics share a byte (30_encoding.md R86, R87: a byte that equals an
entry decodes as that entry's instruction). DEDUCED, log 21: what a clashing map decodes to is left out by this. -/
def OpcodeMap.wf (m : OpcodeMap) : Bool :=
  decide ((allMnemonics.map (opcodeByte m)).Nodup)

/-- An instruction is well formed under a map when its opcode byte is the byte of its mnemonic alone. Its operands
need no check: every operand bit pattern has an effect (R82, R90, R91). -/
def Instr.wf (m : OpcodeMap) (i : Instr) : Bool :=
  (allMnemonics.filter fun k => opcodeByte m k == opcodeByte m i.mnemonic) == [i.mnemonic]

/-- A launch is well formed when the image fits: `LOAD_ADDR + length(IMAGE) ≤ N`
(70_reset_and_hazards.md R264). -/
def Launch.wf (l : Launch) : Bool :=
  decide (l.loadAddr + l.image.length ≤ l.memSize.val)

end Sys2Proof
end

