-- ==== Sys2Proof/Decode.lean ====
section
/-! DEFINITION. Decoding bytes into an instruction, total and rejecting by name, and the encoder after it; the byte
order of a 16-bit value, said once (20_memory.md R64). -/

namespace Sys2Proof

/-- `hi : lo`, the 16-bit value of two bytes, the first the high one (R10, R64, R84). -/
def wordOfBytes (hi lo : Byte) : Word := hi ++ lo

/-- `v[15:8]` (R10). -/
def hiByte (v : Word) : Byte := v.extractLsb' 8 8

/-- `v[7:0]` (R10). -/
def loByte (v : Word) : Byte := v.extractLsb' 0 8

/-- `b[7:4]` (R10). -/
def hiNibble (b : Byte) : Nibble := b.extractLsb' 4 4

/-- `b[3:0]` (R10). -/
def loNibble (b : Byte) : Nibble := b.extractLsb' 0 4

/-- The byte with the two given nibbles (R81: register byte, CMP operand byte). -/
def byteOfNibbles (h l : Nibble) : Byte := h ++ l

/-- Why a byte sequence is no instruction. -/
inductive DecodeError where
  /-- There is no opcode byte. -/
  | empty
  /-- The opcode byte is in no entry of the map (30_encoding.md R88); the machine reports it and goes on (R121). -/
  | unknownOpcode (op : Byte)
  /-- The sequence ends before the last operand byte of this mnemonic (R85). -/
  | truncated (k : Mnemonic)
  deriving DecidableEq, Repr

/-- The mnemonic of an opcode byte: the whole byte is matched against the map (R87). Where two entries of an
ill-formed map share a byte, the first in the table's order (DESIGN CHOICE, log 21). -/
def decodeOpcode (m : OpcodeMap) (op : Byte) : Option Mnemonic :=
  allMnemonics.find? fun k => opcodeByte m k == op

/-- How many operand bytes follow the opcode byte (R81, R85). -/
def operandLength : Mnemonic → Nat
  | .nop | .add => 0
  | .sys | .push | .pop | .cmp => 1
  | .pushi | .branch | .branchLessThan | .branchGreaterThan | .branchEqualTo | .branchNotEqualTo => 2
  | .addi | .cmpi | .andi | .ori => 3

/-- The length of an instruction in bytes, a function of its mnemonic alone (R85). -/
def instrLength (k : Mnemonic) : Nat := 1 + operandLength k

/-- Byte `k` of an operand list. -/
def operandByte (bs : List Byte) (k : Nat) : Byte := bs.getD k 0

/-- The 16-bit operand of formats I and IR: the first two operand bytes, high byte first (R81, R84). -/
def operandWord (bs : List Byte) : Word := wordOfBytes (operandByte bs 0) (operandByte bs 1)

/-- The instruction of a mnemonic and its operand bytes, of which there are `operandLength` (R81 to R84). -/
def decodeOperands (k : Mnemonic) (bs : List Byte) : Instr :=
  match k with
  | .nop => .nop
  | .sys => .sys (operandByte bs 0)
  | .push => .push (hiNibble (operandByte bs 0)) (loNibble (operandByte bs 0))
  | .pushi => .pushi (operandWord bs)
  | .pop => .pop (hiNibble (operandByte bs 0)) (loNibble (operandByte bs 0))
  | .add => .add
  | .addi => .addi (operandWord bs) (hiNibble (operandByte bs 2)) (loNibble (operandByte bs 2))
  | .branch => .branch (operandWord bs)
  | .branchLessThan => .branchLessThan (operandWord bs)
  | .branchGreaterThan => .branchGreaterThan (operandWord bs)
  | .branchEqualTo => .branchEqualTo (operandWord bs)
  | .branchNotEqualTo => .branchNotEqualTo (operandWord bs)
  | .cmp => .cmp (hiNibble (operandByte bs 0)) (loNibble (operandByte bs 0))
  | .cmpi => .cmpi (operandWord bs) (hiNibble (operandByte bs 2)) (loNibble (operandByte bs 2))
  | .andi => .andi (operandWord bs) (hiNibble (operandByte bs 2)) (loNibble (operandByte bs 2))
  | .ori => .ori (operandWord bs) (hiNibble (operandByte bs 2)) (loNibble (operandByte bs 2))

/-- Decoding a byte sequence: the instruction at its head and the rest (R80, R85, R87, R88). -/
def decode (m : OpcodeMap) : List Byte → Except DecodeError (Instr × List Byte)
  | [] => .error .empty
  | op :: rest =>
    match decodeOpcode m op with
    | none => .error (.unknownOpcode op)
    | some k =>
      if rest.length < operandLength k then .error (.truncated k)
      else .ok (decodeOperands k (rest.take (operandLength k)), rest.drop (operandLength k))

/-- The operand bytes of an instruction in fetch order (R81). -/
def encodeOperands : Instr → List Byte
  | .nop | .add => []
  | .sys n => [n]
  | .push h r | .pop h r => [byteOfNibbles h r]
  | .cmp s d => [byteOfNibbles s d]
  | .pushi v | .branch v | .branchLessThan v | .branchGreaterThan v | .branchEqualTo v | .branchNotEqualTo v =>
    [hiByte v, loByte v]
  | .addi imm h r | .cmpi imm h r | .andi imm h r | .ori imm h r => [hiByte imm, loByte imm, byteOfNibbles h r]

/-- The bytes of an instruction: its opcode byte, then its operand bytes (R80, R81). -/
def encode (m : OpcodeMap) (i : Instr) : List Byte :=
  opcodeByte m i.mnemonic :: encodeOperands i

/-- The longest instruction, in bytes (R85). -/
def maxInstrLength : Nat := 4

/-- Byte `k` of a number whose least significant byte is byte 0. -/
def byteOfNat (w k : Nat) : Byte := BitVec.ofNat 8 (w / 2 ^ (8 * k))

/-- The bytes of an opcode-table word: the low `nbits` bits of `w`, byte 0 the opcode, every later bit zero, up to
the longest instruction. -/
def tableWordBytes (nbits w : Nat) : List Byte :=
  (List.range maxInstrLength).map (byteOfNat (w % 2 ^ nbits))

/-- The instruction the decoder reads from a word of spec/opcode_table.json, under the default map. -/
def decodeTableWord (nbits w : Nat) : Option Instr :=
  match decode defaultOpcodeMap (tableWordBytes nbits w) with
  | .ok (i, _) => some i
  | .error _ => none

end Sys2Proof
end

