-- ==== Sys2Proof/Machine/State.lean ====
section
/-! DEFINITION. The machine's state as plain data (10_state.md), the reasons a step stops, and the state after
reset. -/

namespace Sys2Proof.Machine

/-- The names of the seven registers (R30). -/
inductive Reg where
  | x0 | x1 | x2 | x3 | sp | bp | pc
  deriving DecidableEq, Repr

/-- The register file: seven independent 16-bit cells (R30). -/
structure Regs where
  x0 : Word
  x1 : Word
  x2 : Word
  x3 : Word
  sp : Word
  bp : Word
  pc : Word
  deriving DecidableEq, Repr

/-- The names of the four flags (R36). Their bit positions stand in Machine/Flags.lean. -/
inductive Flag where
  | halt | stepDebug | lessThan | greaterThan
  deriving DecidableEq, Repr

/-- The sign of a comparison (42_alu.md R172). -/
inductive CmpResult where
  | neg | zero | pos
  deriving DecidableEq, Repr

/-- The kind of a byte access (20_memory.md R62). -/
inductive AccessKind where
  | fetch | read | write
  deriving DecidableEq, Repr

/-- A non-fatal report (60_exceptions.md R231, R232). -/
inductive Diag where
  /-- A register operand that resolves to none, with the 4-bit index. -/
  | invalidRegister (idx : Nibble)
  /-- An opcode byte that is no instruction, with the byte. -/
  | unknownOpcode (op : Byte)
  deriving DecidableEq, Repr

/-- An event of the output log (10_state.md R43). -/
inductive Event where
  /-- One character on the console port, from SYS 0x01. -/
  | console (c : Byte)
  /-- A report on the diagnostic port. -/
  | diag (d : Diag)
  /-- A snapshot of the registers and the flag byte, from the step-debug trace. -/
  | trace (regs : Regs) (flags : Byte)
  deriving DecidableEq, Repr

/-- What an address below N reads as while no entry lists it: the memory is zero-filled at creation (R40). -/
def unlistedByte : Byte := 0x00#8

/-- The address space: `size` bytes (N, `MEM_SIZE`, at most 65536 by its type; R40), of which `cells` lists those that
are not `unlistedByte`. -/
structure Memory where
  size : Fin 65537
  cells : List Host.Cell
  deriving DecidableEq, Repr

/-- The canonical form of memory: addresses strictly rising and below N, and no listed byte that an unlisted address
reads as. -/
abbrev Memory.wf (m : Memory) : Prop :=
  m.cells.Pairwise (fun c d => c.1 < d.1) ∧ ∀ c ∈ m.cells, c.1 < m.size.val ∧ c.2 ≠ unlistedByte

/-- The machine: `(reg, F, mem, log)` (10_state.md), and the parameters it was created with (00_scope.md R9), which
are data so that a statement holds for every value of them (DESIGN CHOICE, safe, log 4). -/
structure State where
  /-- The register file (R30). -/
  regs : Regs
  /-- The flag register, the whole byte `F.byte` (R36). -/
  flags : Byte
  /-- The address space (R40). -/
  mem : Memory
  /-- The output log, oldest event first (R43). -/
  log : List Event
  /-- The parameters of the machine (00_scope.md R9). -/
  params : Params
  deriving DecidableEq, Repr

/-- Why a step has no next state. The first is the spec's fault; the other two are the two ends of `run()` found by
the loop test, at which the machine moves no more (DESIGN CHOICE, safe, log 16). -/
inductive Fault where
  /-- MemFault(a, kind): a byte access at address `addr`, which is N or above. Raised by a fetch, by POP (read), by
  PUSH and PUSHI (write) (20_memory.md R62, 60_exceptions.md R233). It carries the output log as it stands at the
  fault, the faulting step's trace in it (R237). Safe: registers, flags and memory at the fault are unspecified for
  claims (40_fetch_decode.md R123), and the fault carries none of them (log 11). -/
  | memFault (addr : Nat) (kind : AccessKind) (log : List Event)
  /-- The run has ended with outcome Halted: the loop test found HALT set. Raised by `step` alone
  (40_fetch_decode.md R120). Safe: no instruction runs, as the spec says. -/
  | halted
  /-- The run has ended with outcome PcOutOfRange: the loop test found the raw pc at N or above with HALT clear.
  Raised by `step` alone (40_fetch_decode.md R120). Safe: no instruction runs, as the spec says. -/
  | pcOutOfRange
  deriving DecidableEq, Repr

/-- What the model gives no meaning (60_exceptions.md R235, 92_eei_decisions.md D20). -/
inductive Refusal where
  /-- An instruction with no meaning yet. Raised by an arm of `exec` alone; none is left. Safe. -/
  | notModelled (mnemonic : String)
  /-- RegByteHighNibble(b): a register byte with a non-zero high nibble under `REG_BYTE_HIGH_NIBBLE = refuse`. Raised
  by POP, ADDI, CMPI, ANDI, ORI (40_fetch_decode.md R114). Safe: the spec's own refusal. -/
  | regByteHighNibble (b : Byte)
  /-- LaunchImageTooLarge: a load with `LOAD_ADDR + length(IMAGE) > N`. Raised by `launch` and by the host's load
  (70_reset_and_hazards.md R264). Safe: the spec's own refusal. -/
  | launchImageTooLarge
  /-- HostAccessDuringRun: a host move on the machine while `run()` executes. Raised by `hostMove`
  (20_memory.md R75). Safe: the spec's own refusal. -/
  | hostAccessDuringRun
  /-- A host move the entry contract does not make: a second run, a move before or after its place, `step()` called
  directly. Raised by `hostMove` and `machineMove` (92_eei_decisions.md D20). Safe: the spec's own refusal. -/
  | hostOutsideContract
  deriving DecidableEq, Repr

/-- A machine as the host's creation and seeding leave it, before an image is loaded (70_reset_and_hazards.md R260,
R262): zero memory, zero registers but sp and bp, all flags 0 (the spec's decision D9, log 9), an empty log. -/
def State.created (l : Launch) : State where
  regs := { x0 := 0, x1 := 0, x2 := 0, x3 := 0, sp := l.spInit, bp := l.bpInit, pc := 0 }
  flags := 0x00#8
  mem := { size := l.memSize, cells := [] }
  log := []
  params := l.params

/-- The machine right after reset: R260 under `defaultLaunch` (`MEM_SIZE` = 65536 log 1, `SP_INIT` = 0 log 2, the
defaults of R9 logs 5, 6, 7, 10; no image, log 3). -/
def State.reset : State := State.created defaultLaunch

end Sys2Proof.Machine
end

