-- ==== Sys2Proof/Machine/Ops.lean ====
section
/-! DEFINITION. The operations on registers, memory, the instruction stream, the stack and the output log. The spec
has no trap entry and no return from a trap (60_exceptions.md R238, R239): what an event does is `emit` and nothing
more, and a MemFault ends the step. -/

namespace Sys2Proof.Machine

/-- `x[r]` (00_scope.md R12). -/
def State.reg (s : State) : Reg → Word
  | .x0 => s.regs.x0
  | .x1 => s.regs.x1
  | .x2 => s.regs.x2
  | .x3 => s.regs.x3
  | .sp => s.regs.sp
  | .bp => s.regs.bp
  | .pc => s.regs.pc

/-- `x[r] <- v` (00_scope.md R12). No register is hardwired (10_state.md R30). -/
def State.setReg (s : State) (r : Reg) (v : Word) : State :=
  match r with
  | .x0 => { s with regs := { s.regs with x0 := v } }
  | .x1 => { s with regs := { s.regs with x1 := v } }
  | .x2 => { s with regs := { s.regs with x2 := v } }
  | .x3 => { s with regs := { s.regs with x3 := v } }
  | .sp => { s with regs := { s.regs with sp := v } }
  | .bp => { s with regs := { s.regs with bp := v } }
  | .pc => { s with regs := { s.regs with pc := v } }

/-- Append one event to the output log (10_state.md R43). -/
def State.emit (s : State) (e : Event) : State := { s with log := s.log ++ [e] }

/-- The byte listed for an address, or what an unlisted one reads as. -/
def cellsRead : List Host.Cell → Nat → Byte
  | [], _ => unlistedByte
  | (a, b) :: rest, k => if k = a then b else cellsRead rest k

/-- List a byte for an address, keeping the canonical form: sorted, and nothing listed that reads so unlisted. -/
def cellsWrite : List Host.Cell → Nat → Byte → List Host.Cell
  | [], k, v => if v = unlistedByte then [] else [(k, v)]
  | (a, b) :: rest, k, v =>
    if k < a then (if v = unlistedByte then (a, b) :: rest else (k, v) :: (a, b) :: rest)
    else if k = a then (if v = unlistedByte then rest else (k, v) :: rest)
    else (a, b) :: cellsWrite rest k v

/-- N, the size of the address space (10_state.md R40). -/
def State.memSize (s : State) : Nat := s.mem.size.val

/-- The byte of memory at an address, none at N and above (10_state.md R40). -/
def State.byteAt (s : State) (a : Nat) : Option Byte :=
  if a < s.memSize then some (cellsRead s.mem.cells a) else none

/-- Memory with one byte stored; the caller has checked that the address is below N. -/
def State.putByte (s : State) (a : Nat) (b : Byte) : State :=
  { s with mem := { s.mem with cells := cellsWrite s.mem.cells a b } }

/-- `MemRead(a, 1)`: the byte, or `MemFault(a, kind)` with the log so far when `a ≥ N` (20_memory.md R60, R62,
60_exceptions.md R237; the fault is the spec's decision D6, log 11). -/
def memRead (kind : AccessKind) (s : State) (a : Nat) : Except Fault Byte :=
  match s.byteAt a with
  | some b => .ok b
  | none => .error (.memFault a kind s.log)

/-- `MemWrite(a, 1, b)`: store, or `MemFault(a, write)` with the log so far when `a ≥ N` (20_memory.md R60, R62,
60_exceptions.md R237). -/
def memWrite (s : State) (a : Nat) (b : Byte) : Except Fault State :=
  if a < s.memSize then .ok (s.putByte a b) else .error (.memFault a .write s.log)

/-- The fetch address `bp +nat pc`, not reduced (20_memory.md R61; the spec's decision D7, log 12). -/
def fetchAddr (s : State) : Nat := (s.reg .bp).toNat + (s.reg .pc).toNat

/-- `fetch_byte()`: read at the fetch address, then pc + 1 modulo 65536 (40_fetch_decode.md R110). -/
def fetchByte (s : State) : Except Fault (Byte × State) :=
  match memRead .fetch s (fetchAddr s) with
  | .error f => .error f
  | .ok b => .ok (b, s.setReg .pc (s.reg .pc + 1))

/-- `n` calls of `fetch_byte()`, the bytes in fetch order; the first fault ends it (60_exceptions.md R237). -/
def fetchBytes : Nat → State → Except Fault (List Byte × State)
  | 0, s => .ok ([], s)
  | n + 1, s =>
    match fetchByte s with
    | .error f => .error f
    | .ok (b, s1) =>
      match fetchBytes n s1 with
      | .error f => .error f
      | .ok (bs, s2) => .ok (b :: bs, s2)

/-- `push16(v)`: high byte at sp, low byte at sp + 1, sp raised by one after each (41_stack.md R140). -/
def push16 (v : Word) (s : State) : Except Fault State :=
  match memWrite s (s.reg .sp).toNat (hiByte v) with
  | .error f => .error f
  | .ok s1 =>
    let s2 := s1.setReg .sp (s1.reg .sp + 1)
    match memWrite s2 (s2.reg .sp).toNat (loByte v) with
    | .error f => .error f
    | .ok s3 => .ok (s3.setReg .sp (s3.reg .sp + 1))

/-- `pop16()`: twice lower sp by one and read there, low byte first (41_stack.md R141). -/
def pop16 (s : State) : Except Fault (Word × State) :=
  let s1 := s.setReg .sp (s.reg .sp - 1)
  match memRead .read s1 (s1.reg .sp).toNat with
  | .error f => .error f
  | .ok lo =>
    let s2 := s1.setReg .sp (s1.reg .sp - 1)
    match memRead .read s2 (s2.reg .sp).toNat with
    | .error f => .error f
    | .ok hi => .ok (wordOfBytes hi lo, s2)

/-- Report an InvalidRegister and go on (40_fetch_decode.md R115, 60_exceptions.md R231). -/
def reportInvalidRegister (idx : Nibble) (s : State) : State := s.emit (.diag (.invalidRegister idx))

/-- Report an UnknownOpcode and go on (40_fetch_decode.md R121, 60_exceptions.md R232). -/
def reportUnknownOpcode (op : Byte) (s : State) : State := s.emit (.diag (.unknownOpcode op))

/-- Copy bytes to memory from an address upward (70_reset_and_hazards.md R261). -/
def loadBytes : List Byte → Nat → State → State
  | [], _, s => s
  | b :: bs, a, s => loadBytes bs (a + 1) (s.putByte a b)

/-- Put bytes where the next fetches read them: byte `k` at the fetch address after `k` increments of pc. An address
at N or above takes none. -/
def placeAtFetch : List Byte → Word → State → State
  | [], _, s => s
  | b :: bs, pc, s =>
    let a := (s.reg .bp).toNat + pc.toNat
    placeAtFetch bs (pc + 1) (if a < s.memSize then s.putByte a b else s)

end Sys2Proof.Machine
end

