-- ==== Sys2Proof/Machine/Flags.lean ====
section
/-! DEFINITION. The flag register: bit positions, reading and writing one flag, the derived conditions, the sign of a
comparison and the flags it sets (10_state.md R36 to R39, 42_alu.md R172, R173). -/

namespace Sys2Proof.Machine

/-- The bit of a flag (R36; the positions are the spec's decision D8, log 8). -/
def flagBit : Flag → Nat
  | .halt => 0
  | .stepDebug => 1
  | .lessThan => 2
  | .greaterThan => 3

/-- The flag byte with that flag alone. -/
def flagMask (f : Flag) : Byte := 1#8 <<< flagBit f

/-- Read one flag. -/
def State.flag (s : State) (f : Flag) : Bool := s.flags.getLsbD (flagBit f)

/-- Write one flag; every other bit stays. -/
def State.setFlag (s : State) (f : Flag) (v : Bool) : State :=
  { s with flags := if v then s.flags ||| flagMask f else s.flags &&& ~~~flagMask f }

/-- `F.LT <- 0 ; F.GT <- 0`. -/
def clearCmpFlags (s : State) : State := (s.setFlag .lessThan false).setFlag .greaterThan false

/-- EQUAL: neither comparison flag is set (R37). -/
def State.equal (s : State) : Bool := !s.flag .lessThan && !s.flag .greaterThan

/-- NOT_EQUAL: either comparison flag is set (R37). -/
def State.notEqual (s : State) : Bool := s.flag .lessThan || s.flag .greaterThan

/-- `toInt16(v)` (00_scope.md R11). PRESUMED: the spec marks it as general knowledge (G1), log 22. -/
def toInt16 (v : Word) : Int :=
  if v.getLsbD 15 then (v.toNat : Int) - 65536 else (v.toNat : Int)

/-- The difference δ of a comparison under each `CMP_MODE` (R172). -/
def cmpDelta (mode : CmpMode) (a b : Word) : Int :=
  match mode with
  | .unsigned => (a.toNat : Int) - (b.toNat : Int)
  | .signed16 => toInt16 a - toInt16 b
  | .wrap16 => toInt16 (a - b)

/-- `alu_cmp(a, b)`: the sign of the difference (R172). -/
def aluCmp (mode : CmpMode) (a b : Word) : CmpResult :=
  let δ := cmpDelta mode a b
  if δ < 0 then .neg else if δ = 0 then .zero else .pos

/-- `set_cmp_flags(c)` (R173); the caller has cleared both flags. -/
def setCmpFlags (c : CmpResult) (s : State) : State :=
  match c with
  | .neg => s.setFlag .lessThan true
  | .zero => s
  | .pos => s.setFlag .greaterThan true

end Sys2Proof.Machine
end

