-- ==== Sys2Proof/Machine/Operands.lean ====
section
/-! DEFINITION. Register operands: resolving an index, and what an instruction does with an operand that resolves to
none (40_fetch_decode.md R113 to R115). -/

namespace Sys2Proof.Machine

/-- `resolve(i)` (R113, 10_state.md R31). -/
def resolve (i : Nibble) : Option Reg :=
  if i = 1#4 then some .x0
  else if i = 2#4 then some .x1
  else if i = 3#4 then some .x2
  else if i = 4#4 then some .x3
  else if i = 5#4 then some .sp
  else if i = 6#4 then some .bp
  else if i = 7#4 then some .pc
  else none

/-- `reg_operand(b)` for the register byte `h : r`: the register, none, or the refusal RegByteHighNibble(b) (R114; the
low nibble as the index and the treatments of the high one are the spec's decision D4, log 6). -/
def regOperand (p : Params) (h r : Nibble) : Except Refusal (Option Reg) :=
  if h = 0#4 then .ok (resolve r)
  else
    match p.regByteHighNibble with
    | .ignore => .ok (resolve r)
    | .invalid => .ok none
    | .refuse => .error (.regByteHighNibble (byteOfNibbles h r))

/-- The tail of every instruction that names a register through `reg_operand`: refuse, or report and go on, or act on
the register (R114, R115). -/
def withRegOperand (h r : Nibble) (s : State) (act : Reg → State) : Host.Outcome State Fault Refusal :=
  match regOperand s.params h r with
  | .error e => .refused e
  | .ok none => .next (reportInvalidRegister r s)
  | .ok (some x) => .next (act x)

end Sys2Proof.Machine
end

