-- ==== Sys2Proof/Machine/Alu.lean ====
section
/-! DEFINITION. The ALU family: ADDI, the reserved ADD, CMP, CMPI, ANDI, ORI (42_alu.md). A meaning starts after the
operand bytes have been fetched (00_scope.md R13). -/

namespace Sys2Proof.Machine

/-- `alu_add(a, b)`, modulo 65536 (R170). -/
def aluAdd (a b : Word) : Word := a + b

/-- `alu_and(a, b)` (R171). -/
def aluAnd (a b : Word) : Word := a &&& b

/-- `alu_or(a, b)` (R171). -/
def aluOr (a b : Word) : Word := a ||| b

/-- ADDI r, imm (R160). -/
def execAddi (imm : Word) (h r : Nibble) (s : State) : Host.Outcome State Fault Refusal :=
  withRegOperand h r s fun x => s.setReg x (aluAdd (s.reg x) imm)

/-- ADD, reserved: its byte acts exactly as an unknown opcode (R161, 30_encoding.md R89; the spec's decision D12,
log 14). -/
def execAdd (s : State) : Host.Outcome State Fault Refusal :=
  .next (reportUnknownOpcode (opcodeByte s.params.opcodeMap .add) s)

/-- CMP s, d (R162): both flags are cleared before validation; with an invalid index one report is made, the source's
first (the spec's decision D16, log 17). -/
def execCmp (src dst : Nibble) (s : State) : Host.Outcome State Fault Refusal :=
  let t := clearCmpFlags s
  match resolve src, resolve dst with
  | none, _ => .next (reportInvalidRegister src t)
  | some _, none => .next (reportInvalidRegister dst t)
  | some a, some b => .next (setCmpFlags (aluCmp s.params.cmpMode (s.reg a) (s.reg b)) t)

/-- CMPI r, imm (R163): both flags are cleared before validation (the spec's decision D13, log 15). -/
def execCmpi (imm : Word) (h r : Nibble) (s : State) : Host.Outcome State Fault Refusal :=
  let t := clearCmpFlags s
  withRegOperand h r t fun x => setCmpFlags (aluCmp s.params.cmpMode (s.reg x) imm) t

/-- ANDI r, imm (R164). -/
def execAndi (imm : Word) (h r : Nibble) (s : State) : Host.Outcome State Fault Refusal :=
  withRegOperand h r s fun x => s.setReg x (aluAnd (s.reg x) imm)

/-- ORI r, imm (R165). -/
def execOri (imm : Word) (h r : Nibble) (s : State) : Host.Outcome State Fault Refusal :=
  withRegOperand h r s fun x => s.setReg x (aluOr (s.reg x) imm)

end Sys2Proof.Machine
end

