-- ==== Sys2Proof/Machine/Branch.lean ====
section
/-! DEFINITION. The branch family (43_branch.md). The target has been fetched whether or not the branch is taken, and
pc is at the next instruction (R190). -/

namespace Sys2Proof.Machine

/-- `branch(cond)` after the fetch of its target (R190): taken, pc is the target and both comparison flags are
cleared; not taken, nothing changes (the spec's decision D11, log 13). -/
def branchTo (taken : Bool) (t : Word) (s : State) : Host.Outcome State Fault Refusal :=
  .next (if taken then clearCmpFlags (s.setReg .pc t) else s)

/-- BRANCH t (R192). -/
def execBranch (t : Word) (s : State) : Host.Outcome State Fault Refusal :=
  branchTo true t s

/-- BRANCH_LESS_THAN t (R193). -/
def execBranchLessThan (t : Word) (s : State) : Host.Outcome State Fault Refusal :=
  branchTo (s.flag .lessThan) t s

/-- BRANCH_GREATER_THAN t (R194). -/
def execBranchGreaterThan (t : Word) (s : State) : Host.Outcome State Fault Refusal :=
  branchTo (s.flag .greaterThan) t s

/-- BRANCH_EQUAL_TO t (R195). -/
def execBranchEqualTo (t : Word) (s : State) : Host.Outcome State Fault Refusal :=
  branchTo s.equal t s

/-- BRANCH_NOT_EQUAL_TO t (R196). -/
def execBranchNotEqualTo (t : Word) (s : State) : Host.Outcome State Fault Refusal :=
  branchTo s.notEqual t s

end Sys2Proof.Machine
end

