-- ==== Sys2Proof/Machine/Stack.lean ====
section
/-! DEFINITION. The stack family: PUSH, PUSHI, POP (41_stack.md). A meaning starts after the operand bytes have been
fetched, with pc at the next instruction (00_scope.md R13, 10_state.md R35). -/

namespace Sys2Proof.Machine

/-- The end of an instruction that pushes: the next state, or the MemFault of a stack write. -/
def pushOutcome (v : Word) (s : State) : Host.Outcome State Fault Refusal :=
  match push16 v s with
  | .error f => .fault f
  | .ok t => .next t

/-- PUSH r (R142): the index is the low nibble and the high one is always ignored; an index that resolves to none is
reported and nothing is pushed. -/
def execPush (_h r : Nibble) (s : State) : Host.Outcome State Fault Refusal :=
  match resolve r with
  | none => .next (reportInvalidRegister r s)
  | some x => pushOutcome (s.reg x) s

/-- PUSHI imm (R143). -/
def execPushi (imm : Word) (s : State) : Host.Outcome State Fault Refusal :=
  pushOutcome imm s

/-- POP r (R144): the pop comes before the register is resolved, so sp has moved when an index resolves to none. -/
def execPop (h r : Nibble) (s : State) : Host.Outcome State Fault Refusal :=
  match pop16 s with
  | .error f => .fault f
  | .ok (v, t) => withRegOperand h r t fun x => t.setReg x v

end Sys2Proof.Machine
end

