-- ==== Sys2Proof/Machine/Sys.lean ====
section
/-! DEFINITION. NOP (40_fetch_decode.md R119) and SYS (44_sys.md). -/

namespace Sys2Proof.Machine

/-- NOP (R119): the opcode fetch has advanced pc, and nothing else changes. -/
def execNop (s : State) : Host.Outcome State Fault Refusal := .next s

/-- SYS n (R210): 0x00 sets HALT (R211), 0x01 emits the low byte of x0 (R212), 0x02 inverts STEP_DEBUG (R213), every
other n does nothing (R214). -/
def execSys (n : Byte) (s : State) : Host.Outcome State Fault Refusal :=
  if n = 0x00#8 then .next (s.setFlag .halt true)
  else if n = 0x01#8 then .next (s.emit (.console (loByte (s.reg .x0))))
  else if n = 0x02#8 then .next (s.setFlag .stepDebug (!s.flag .stepDebug))
  else .next s

end Sys2Proof.Machine
end

