-- ==== Sys2Proof/Machine/Dispatch.lean ====
section
/-! DEFINITION. The meaning of each instruction, one arm per constructor (40_fetch_decode.md R117). -/

namespace Sys2Proof.Machine

def exec (i : Instr) (s : State) : Host.Outcome State Fault Refusal :=
  match i with
  | .nop => Sys2Proof.Machine.execNop s
  | .sys n => Sys2Proof.Machine.execSys n s
  | .push h r => Sys2Proof.Machine.execPush h r s
  | .pushi imm => Sys2Proof.Machine.execPushi imm s
  | .pop h r => Sys2Proof.Machine.execPop h r s
  | .add => Sys2Proof.Machine.execAdd s
  | .addi imm h r => Sys2Proof.Machine.execAddi imm h r s
  | .branch t => Sys2Proof.Machine.execBranch t s
  | .branchLessThan t => Sys2Proof.Machine.execBranchLessThan t s
  | .branchGreaterThan t => Sys2Proof.Machine.execBranchGreaterThan t s
  | .branchEqualTo t => Sys2Proof.Machine.execBranchEqualTo t s
  | .branchNotEqualTo t => Sys2Proof.Machine.execBranchNotEqualTo t s
  | .cmp src dst => Sys2Proof.Machine.execCmp src dst s
  | .cmpi imm h r => Sys2Proof.Machine.execCmpi imm h r s
  | .andi imm h r => Sys2Proof.Machine.execAndi imm h r s
  | .ori imm h r => Sys2Proof.Machine.execOri imm h r s

end Sys2Proof.Machine
end

