-- ==== Sys2Proof/Machine/Fetch.lean ====
section
/-! DEFINITION. One step of the core and the test of its run loop (40_fetch_decode.md R116 to R121). -/

namespace Sys2Proof.Machine

/-- The flag byte the trace fires on: STEP_DEBUG alone, by exact equality (R118; the spec's decision D15, log 18). -/
def stepDebugOnly : Byte := flagMask .stepDebug

/-- Emit `Trace(reg, F)` when the whole flag byte equals STEP_DEBUG alone (R116, R118). -/
def traceStep (s : State) : State :=
  if s.flags = stepDebugOnly then s.emit (.trace s.regs s.flags) else s

/-- `step()` (R116, R117): the trace, the opcode fetch, the operand fetches in order, then the instruction's own
effects; an opcode byte in no entry of the map is reported with no operand byte consumed (R121). The operand bytes
are all fetched before the first effect, as every handler of the spec does (DEDUCED, safe, log 26). -/
def stepInstr (s : State) : Host.Outcome State Fault Refusal :=
  match fetchByte (traceStep s) with
  | .error f => .fault f
  | .ok (op, s1) =>
    match decodeOpcode s1.params.opcodeMap op with
    | none => .next (reportUnknownOpcode op s1)
    | some k =>
      match fetchBytes (operandLength k) s1 with
      | .error f => .fault f
      | .ok (bs, s2) => exec (decodeOperands k bs) s2

/-- The test of the run loop: HALT first, then the raw pc against N (R120, R122; the spec's decisions D14 and D17,
log 16). None when the loop goes on. -/
def loopTest (s : State) : Option Fault :=
  if s.flag .halt then some .halted
  else if s.memSize ≤ (s.reg .pc).toNat then some .pcOutOfRange
  else none

end Sys2Proof.Machine
end

