-- ==== Sys2Proof/Machine/Step.lean ====
section
/-! DEFINITION. One turn of the run loop, and the state in which a given instruction is the next to run. -/

namespace Sys2Proof.Machine

/-- One turn of `run()` (40_fetch_decode.md R120): the loop test, and one `step()` where the loop goes on. -/
def step (s : State) : Host.Outcome State Fault Refusal :=
  match loopTest s with
  | some f => .fault f
  | none => stepInstr s

/-- The state with an instruction of spec/opcode_table.json stored where the next step fetches it. -/
def State.withFetchWord (s : State) (nbits w : Nat) : State :=
  placeAtFetch (tableWordBytes nbits w) (s.reg .pc) s

end Sys2Proof.Machine
end

