-- ==== Sys2Proof/Machine/Run.lean ====
section
/-! DEFINITION. `run()` under fuel and its outcomes (40_fetch_decode.md R120, R126, 70_reset_and_hazards.md R266). -/

namespace Sys2Proof.Machine

/-- How a run ends (R266). The final state is the observable result (R267), except at a fault, where all of it but the
output log is unspecified (40_fetch_decode.md R123, 60_exceptions.md R237), and at a refusal, which is a mark of the
model and carries no state (R235; DESIGN CHOICE, safe, log 29). -/
inductive RunResult where
  /-- HALT was found set at the loop test. -/
  | halted (final : State)
  /-- The raw pc was found at N or above at the loop test, with HALT clear. -/
  | pcOutOfRange (final : State)
  /-- `Faulted(MemFault(a, kind))`, with the output log at the fault. -/
  | faulted (addr : Nat) (kind : AccessKind) (log : List Event)
  /-- `Refused(reason)`, model only. -/
  | refused (reason : Refusal)
  /-- The run had not ended when the fuel was used up; a run may have no end (R126). -/
  | unfinished (current : State)
  deriving DecidableEq, Repr

/-- The result at a state from which the step gives no next state. -/
def endOfRun (s : State) : Fault → RunResult
  | .halted => .halted s
  | .pcOutOfRange => .pcOutOfRange s
  | .memFault a k log => .faulted a k log

/-- `run()` with at most `fuel` turns of its loop (R120, R126). -/
def run : Nat → State → RunResult
  | 0, s =>
    match loopTest s with
    | some f => endOfRun s f
    | none => .unfinished s
  | fuel + 1, s =>
    match step s with
    | .next t => run fuel t
    | .fault f => endOfRun s f
    | .refused r => .refused r

end Sys2Proof.Machine
end

