-- ==== Sys2Proof/Machine/HostControl.lean ====
section
/-! DEFINITION. Host control: the launch (70_reset_and_hazards.md R262), and the moves the host may make around a run
(R275, 92_eei_decisions.md D20). -/

namespace Sys2Proof.Machine

/-- Load an image: copied byte by byte, or refused when it does not fit (70_reset_and_hazards.md R261, R264). -/
def loadImage (addr : Nat) (image : List Byte) (s : State) : Host.Outcome State Fault Refusal :=
  if addr + image.length ≤ s.memSize then .next (loadBytes image addr s) else .refused .launchImageTooLarge

/-- `launch` up to the first loop test: create, seed sp, set bp, load (R262). Its state is the clean-entry state of
R276. -/
def launch (l : Launch) : Host.Outcome State Fault Refusal :=
  loadImage l.loadAddr l.image (State.created l)

/-- Where a machine instance stands in the entry contract (R262): its moves come in this order and no other. -/
inductive Phase where
  /-- Created; the host seeds sp next. -/
  | created
  /-- sp is seeded; the host sets bp or, leaving bp at its default 0, loads. -/
  | spSeeded
  /-- bp is set; the host loads. -/
  | bpSet
  /-- The image is loaded; the host calls `run()`. -/
  | loaded
  /-- `run()` executes; the host has no move (20_memory.md R75). -/
  | running
  /-- `run()` has ended; the host reads the outcome and the state, and releases the machine. -/
  | ended (outcome : Fault)
  /-- The machine is gone. -/
  | released
  deriving DecidableEq, Repr

/-- A machine instance and its place in the entry contract. -/
structure Session where
  phase : Phase
  machine : State
  /-- The model's own: what the free contents after a MemFault are drawn from (DESIGN CHOICE, safe, log 28). -/
  seed : Nat
  deriving DecidableEq, Repr

/-- The moves of the host (R275). -/
inductive HostMove where
  /-- Set sp to SP_INIT. -/
  | seedSp (v : Word)
  /-- Set bp to BP_INIT. -/
  | setBp (v : Word)
  /-- Copy an image to an address. -/
  | load (addr : Nat) (image : List Byte)
  /-- Call `run()`. -/
  | startRun
  /-- Look at the registers, the flags, memory or the log from outside. -/
  | read
  /-- Change a byte of memory from outside, other than by the load. -/
  | write (addr : Nat) (b : Byte)
  /-- Release the machine. -/
  | release
  deriving DecidableEq, Repr

/-- `create(N)`: the machine of R260 with sp and bp still zero. -/
def Session.create (memSize : Fin 65537) (params : Params) (seed : Nat) : Session where
  phase := .created
  machine := State.created { memSize := memSize, spInit := 0, bpInit := 0, loadAddr := 0, image := [], params := params }
  seed := seed

/-- The load within a session: the image copied, or LaunchImageTooLarge (R261, R264). -/
def loadMove (addr : Nat) (image : List Byte) (c : Session) : Host.Outcome Session Fault Refusal :=
  match loadImage addr image c.machine with
  | .next t => .next { c with phase := .loaded, machine := t }
  | .fault f => .fault f
  | .refused r => .refused r

/-- After creation: seed sp, and nothing else (R262, R275). Here and in the phases below, a move out of its place is
refused (D20, log 19). -/
def createdMove (mv : HostMove) (c : Session) : Host.Outcome Session Fault Refusal :=
  match mv with
  | .seedSp v => .next { c with phase := .spSeeded, machine := c.machine.setReg .sp v }
  | .setBp _ | .load _ _ | .startRun | .read | .write _ _ | .release => .refused .hostOutsideContract

/-- With sp seeded: set bp, or load with bp left at its default (R275; BP_INIT is the spec's decision D10, log 10). -/
def spSeededMove (mv : HostMove) (c : Session) : Host.Outcome Session Fault Refusal :=
  match mv with
  | .setBp v => .next { c with phase := .bpSet, machine := c.machine.setReg .bp v }
  | .load addr image => loadMove addr image c
  | .seedSp _ | .startRun | .read | .write _ _ | .release => .refused .hostOutsideContract

/-- With bp set: load (R275). -/
def bpSetMove (mv : HostMove) (c : Session) : Host.Outcome Session Fault Refusal :=
  match mv with
  | .load addr image => loadMove addr image c
  | .seedSp _ | .setBp _ | .startRun | .read | .write _ _ | .release => .refused .hostOutsideContract

/-- With the image loaded: call `run()` (R275). -/
def loadedMove (mv : HostMove) (c : Session) : Host.Outcome Session Fault Refusal :=
  match mv with
  | .startRun => .next { c with phase := .running }
  | .seedSp _ | .setBp _ | .load _ _ | .read | .write _ _ | .release => .refused .hostOutsideContract

/-- After the run: read the final state, which changes nothing (60_exceptions.md R245), or release the machine (R275).
A second run is refused (D20, log 19). -/
def endedMove (mv : HostMove) (c : Session) : Host.Outcome Session Fault Refusal :=
  match mv with
  | .read => .next c
  | .release => .next { c with phase := .released }
  | .seedSp _ | .setBp _ | .load _ _ | .startRun | .write _ _ => .refused .hostOutsideContract

/-- A move of the host in its phase: HostAccessDuringRun while `run()` executes (20_memory.md R75), and no move on a
released machine. -/
def hostMove (mv : HostMove) (c : Session) : Host.Outcome Session Fault Refusal :=
  match c.phase with
  | .created => createdMove mv c
  | .spSeeded => spSeededMove mv c
  | .bpSet => bpSetMove mv c
  | .loaded => loadedMove mv c
  | .running => .refused .hostAccessDuringRun
  | .ended _ => endedMove mv c
  | .released => .refused .hostOutsideContract

/-- What the host finds after a MemFault: registers, flags and every byte of memory as free values, since the spec leaves
them unspecified (40_fetch_decode.md R123, R267, D6), and the output log of the fault, which it does not (60_exceptions.md
R237). The form of the free values is the model's: DESIGN CHOICE, safe, log 28. -/
def faultedMachine (seed : Nat) (log : List Event) (s : State) : State :=
  loadBytes ((List.range s.memSize).map (Config.faultByte seed)) 0
    { regs :=
        { x0 := Config.faultReg seed 1#4, x1 := Config.faultReg seed 2#4, x2 := Config.faultReg seed 3#4,
          x3 := Config.faultReg seed 4#4, sp := Config.faultReg seed 5#4, bp := Config.faultReg seed 6#4,
          pc := Config.faultReg seed 7#4 }
      flags := Config.faultFlags seed
      mem := { s.mem with cells := [] }
      log := log
      params := s.params }

/-- The machine at the end of a run from the loop turn at `s` that answered the stop: the two ends the loop test finds
leave it as it is (R267); a MemFault leaves what `faultedMachine` says (log 28). -/
def endedMachine (seed : Nat) (s : State) : Fault → State
  | .halted | .pcOutOfRange => s
  | .memFault _ _ log => faultedMachine seed log s

/-- One turn of the run loop within a session; its stop ends the run with that outcome (R266, R267). Outside a run it
would be a direct call of `step()`, which the contract does not make (D20). -/
def machineMove (c : Session) : Host.Outcome Session Fault Refusal :=
  match c.phase with
  | .running =>
    match step c.machine with
    | .next t => .next { c with machine := t }
    | .fault f => .next { c with phase := .ended f, machine := endedMachine c.seed c.machine f }
    | .refused r => .refused r
  | .created | .spSeeded | .bpSet | .loaded | .ended _ | .released => .refused .hostOutsideContract

end Sys2Proof.Machine
end

