-- ==== Sys2Proof/Machine/Assembler.lean ====
section
/-! DEFINITION. The assembly language of 30_encoding.md R94 (the spec's decision D19; the assembler itself is out of
scope, 00_scope.md R4): lines as data, not as text (log 24). -/

namespace Sys2Proof.Machine

/-- A number, or a label whose value is its offset in the image (R94). Labels are numbered here. -/
inductive AsmValue where
  | num (v : Word)
  | label (l : Nat)
  deriving DecidableEq, Repr

/-- One line of assembly (R94). Register operands are names: the assembler has none for the invalid indices. -/
inductive AsmLine where
  | nop
  | sys (n : Byte)
  | push (r : Reg)
  | pushi (v : AsmValue)
  | pop (r : Reg)
  | addi (r : Reg) (v : AsmValue)
  | cmp (s d : Reg)
  | cmpi (r : Reg) (v : AsmValue)
  | andi (r : Reg) (v : AsmValue)
  | ori (r : Reg) (v : AsmValue)
  | branch (t : AsmValue)
  | branchLessThan (t : AsmValue)
  | branchGreaterThan (t : AsmValue)
  | branchEqualTo (t : AsmValue)
  | branchNotEqualTo (t : AsmValue)
  /-- `.byte b`: one raw byte. -/
  | byte (b : Byte)
  /-- `label:`. -/
  | label (l : Nat)
  deriving DecidableEq, Repr

/-- The index the assembler encodes a register name with (10_state.md R31). -/
def regIndex : Reg → Nibble
  | .x0 => 1
  | .x1 => 2
  | .x2 => 3
  | .x3 => 4
  | .sp => 5
  | .bp => 6
  | .pc => 7

/-- The value of an operand, given the labels' offsets. Where two lines define one label, R94 does not say which offset
is meant: the first definition is taken (DESIGN CHOICE, unsafe for such a program, log 24). -/
def asmValue (labels : List (Nat × Word)) : AsmValue → Option Word
  | .num v => some v
  | .label l => labels.lookup l

/-- The bytes of a line: the high nibble of a register byte is 0 (R94). None when a label is not defined. -/
def asmBytes (m : OpcodeMap) (labels : List (Nat × Word)) : AsmLine → Option (List Byte)
  | .nop => some (encode m .nop)
  | .sys n => some (encode m (.sys n))
  | .push r => some (encode m (.push 0 (regIndex r)))
  | .pushi v => (asmValue labels v).map fun w => encode m (.pushi w)
  | .pop r => some (encode m (.pop 0 (regIndex r)))
  | .addi r v => (asmValue labels v).map fun w => encode m (.addi w 0 (regIndex r))
  | .cmp s d => some (encode m (.cmp (regIndex s) (regIndex d)))
  | .cmpi r v => (asmValue labels v).map fun w => encode m (.cmpi w 0 (regIndex r))
  | .andi r v => (asmValue labels v).map fun w => encode m (.andi w 0 (regIndex r))
  | .ori r v => (asmValue labels v).map fun w => encode m (.ori w 0 (regIndex r))
  | .branch v => (asmValue labels v).map fun w => encode m (.branch w)
  | .branchLessThan v => (asmValue labels v).map fun w => encode m (.branchLessThan w)
  | .branchGreaterThan v => (asmValue labels v).map fun w => encode m (.branchGreaterThan w)
  | .branchEqualTo v => (asmValue labels v).map fun w => encode m (.branchEqualTo w)
  | .branchNotEqualTo v => (asmValue labels v).map fun w => encode m (.branchNotEqualTo w)
  | .byte b => some [b]
  | .label _ => some []

/-- The length of a line in bytes (R85). -/
def asmLength : AsmLine → Nat
  | .nop | .byte _ => 1
  | .sys _ | .push _ | .pop _ | .cmp _ _ => 2
  | .pushi _ | .branch _ | .branchLessThan _ | .branchGreaterThan _ | .branchEqualTo _ | .branchNotEqualTo _ => 3
  | .addi _ _ | .cmpi _ _ | .andi _ _ | .ori _ _ => 4
  | .label _ => 0

/-- The labels of a program with their offsets from `start`, in the order of their lines (R94). -/
def asmLabels : List AsmLine → Nat → List (Nat × Word)
  | [], _ => []
  | .label l :: rest, start => (l, BitVec.ofNat 16 start) :: asmLabels rest start
  | line :: rest, start => asmLabels rest (start + asmLength line)

/-- The image of a program: every line's bytes, with labels resolved (R94). -/
def assemble (m : OpcodeMap) (prog : List AsmLine) : Option (List Byte) :=
  (prog.mapM (asmBytes m (asmLabels prog 0))).map List.flatten

end Sys2Proof.Machine
end

