-- ==== Sys2Proof/Machine/Ports.lean ====
section
/-! DEFINITION. What the two output ports carry, read off the output log (00_scope.md R6, 10_state.md R43). -/

namespace Sys2Proof.Machine

/-- The console byte of an event, if it is a console event. -/
def consoleByte : Event → Option Byte
  | .console c => some c
  | .diag _ | .trace _ _ => none

/-- The console port: one 8-bit character for each SYS 0x01, in order (R6, 44_sys.md R212). -/
def State.consolePort (s : State) : List Byte := s.log.filterMap consoleByte

/-- The text of an event on the diagnostic port. `DIAG_FORMAT` is open, so the text is a free value (92_eei_decisions.md
D16, log 17); a console event has none, the two ports being separate. -/
def diagText : Event → List Byte
  | .console _ => []
  | .diag (.invalidRegister i) => Config.invalidRegisterText i
  | .diag (.unknownOpcode op) => Config.unknownOpcodeText op
  | .trace r f => Config.traceText [r.x0, r.x1, r.x2, r.x3, r.sp, r.bp, r.pc] f

/-- The diagnostic port: the reports and traces, in order (R6). -/
def State.diagnosticPort (s : State) : List Byte := s.log.flatMap diagText

end Sys2Proof.Machine
end

