-- ==== Sys2Proof/Safety.lean ====
section
/-! DEFINITION. The terms the claims are stated in: the invariant of the machine, what a step leaves alone, and a
successful run. -/

namespace Sys2Proof.Machine

/-- LESS_THAN and GREATER_THAN are never both set (10_state.md R38), and bits 7:4 of the flag byte are 0 (R46). -/
abbrev State.flagsLegal (s : State) : Prop :=
  ¬ (s.flag .lessThan = true ∧ s.flag .greaterThan = true) ∧ s.flags.extractLsb' 4 4 = 0#4

/-- The invariant of the machine: memory in its canonical form, legal flags. -/
abbrev State.Inv (s : State) : Prop := s.mem.wf ∧ s.flagsLegal

/-- Every byte of memory reads in `t` as in `s`, and the address space has the same size. -/
def SameMemory (s t : State) : Prop := ∀ a, t.byteAt a = s.byteAt a

/-- Every register but those listed reads in `t` as in `s`. -/
def SameRegsBut (rs : List Reg) (s t : State) : Prop := ∀ r, r ∉ rs → t.reg r = s.reg r

/-- `t` has the address space, the bytes, the log and the parameters of `s`. -/
def SameMemLogParams (s t : State) : Prop :=
  SameMemory s t ∧ t.memSize = s.memSize ∧ t.log = s.log ∧ t.params = s.params

/-- From `s` to `t` nothing changes but the registers listed: no flag bit, no byte, no event, no parameter. -/
def OnlyRegs (rs : List Reg) (s t : State) : Prop :=
  SameRegsBut rs s t ∧ t.flags = s.flags ∧ SameMemLogParams s t

/-- From `s` to `t` the event is appended to the log and nothing else changes. -/
def OnlyEvent (e : Event) (s t : State) : Prop :=
  SameRegsBut [] s t ∧ t.flags = s.flags ∧ SameMemory s t ∧ t.memSize = s.memSize ∧ t.params = s.params ∧
    t.log = s.log ++ [e]

/-- From `s` to `t` the flags HALT and STEP_DEBUG and bits 7:4 of the flag byte stay. -/
def SameOtherFlags (s t : State) : Prop :=
  t.flag .halt = s.flag .halt ∧ t.flag .stepDebug = s.flag .stepDebug ∧
    t.flags.extractLsb' 4 4 = s.flags.extractLsb' 4 4

/-- The register byte `h : r` names the register `x` (40_fetch_decode.md R114). -/
abbrev NamesReg (s : State) (h r : Nibble) (x : Reg) : Prop :=
  resolve r = some x ∧ (h = 0#4 ∨ s.params.regByteHighNibble = .ignore)

/-- The register byte `h : r` resolves to none (40_fetch_decode.md R114). -/
abbrev NamesNone (s : State) (h r : Nibble) : Prop :=
  (resolve r = none ∧ (h = 0#4 ∨ s.params.regByteHighNibble = .ignore)) ∨
    (h ≠ 0#4 ∧ s.params.regByteHighNibble = .invalid)

/-- The loop test lets a step run: HALT clear and the raw pc below N (40_fetch_decode.md R120). -/
abbrev LoopGoesOn (s : State) : Prop := s.flag .halt = false ∧ (s.reg .pc).toNat < s.memSize

/-- The address of the byte `k` bytes past pc: `bp +nat (pc + k)`, with pc + k modulo 65536 and the sum not reduced
(40_fetch_decode.md R110). -/
def codeAddr (s : State) (k : Nat) : Nat := (s.reg .bp).toNat + (s.reg .pc + BitVec.ofNat 16 k).toNat

/-- The bytes at the next fetch addresses are `bs`. -/
abbrev CodeAt (s : State) (bs : List Byte) : Prop := ∀ k (h : k < bs.length), s.byteAt (codeAddr s k) = some bs[k]

/-- The log of a step before its opcode fetch: a trace is added exactly when the flag byte is STEP_DEBUG alone, 0x02
(40_fetch_decode.md R118; the bit position is the spec's decision D8). -/
def logAfterTrace (s : State) : List Event :=
  s.log ++ (if s.flags = 0x02#8 then [.trace s.regs s.flags] else [])

/-- The state an instruction of `n` bytes acts on within a step: the trace emitted, pc past its bytes. -/
def afterFetch (s : State) (n : Nat) : State :=
  ({ s with log := logAfterTrace s } : State).setReg .pc (s.reg .pc + BitVec.ofNat 16 n)

/-- The bytes 0 and 1 of a push of `v` stand at sp and sp + 1, high byte first, sp is raised by 2, and nothing else
changes (41_stack.md R140). -/
def Pushed (v : Word) (s t : State) : Prop :=
  t.reg .sp = s.reg .sp + 2 ∧ t.byteAt (s.reg .sp).toNat = some (BitVec.ofNat 8 (v.toNat / 256)) ∧
    t.byteAt (s.reg .sp + 1).toNat = some (BitVec.ofNat 8 (v.toNat % 256)) ∧
    (∀ a, a ≠ (s.reg .sp).toNat → a ≠ (s.reg .sp + 1).toNat → t.byteAt a = s.byteAt a) ∧
    SameRegsBut [.sp] s t ∧ t.flags = s.flags ∧ t.memSize = s.memSize ∧ t.log = s.log ∧ t.params = s.params

/-- A taken branch to `w`: pc is the target, both comparison flags are clear, nothing else changes
(43_branch.md R190). -/
def BranchTaken (w : Word) (s t : State) : Prop :=
  t.reg .pc = w ∧ t.flag .lessThan = false ∧ t.flag .greaterThan = false ∧ SameOtherFlags s t ∧
    SameRegsBut [.pc] s t ∧ SameMemLogParams s t

/-- A comparison with difference `δ`: LESS_THAN and GREATER_THAN say its sign, nothing else changes
(42_alu.md R173). -/
def Compared (δ : Int) (s t : State) : Prop :=
  t.flag .lessThan = decide (δ < 0) ∧ t.flag .greaterThan = decide (0 < δ) ∧ SameOtherFlags s t ∧
    SameRegsBut [] s t ∧ SameMemLogParams s t

/-- The difference of a comparison as 42_alu.md R172 writes it, with the two's-complement reading of
00_scope.md R11. -/
def specDelta (mode : CmpMode) (a b : Word) : Int :=
  match mode with
  | .unsigned => (a.toNat : Int) - b.toNat
  | .signed16 => a.toInt - b.toInt
  | .wrap16 => (a - b).toInt

/-- The index of a register in the table of 10_state.md R31. -/
def tableIndex : Reg → Nibble
  | .x0 => 1#4
  | .x1 => 2#4
  | .x2 => 3#4
  | .x3 => 4#4
  | .sp => 5#4
  | .bp => 6#4
  | .pc => 7#4

/-- The value of an operand of an assembly line: the number, or the offset the label has (30_encoding.md R94; for a label
defined twice the first one, log 24). -/
def AsmValueIs (labels : List (Nat × Word)) : AsmValue → Word → Prop
  | .num n, w => w = n
  | .label l, w => labels.lookup l = some w

/-- The instruction an assembly line stands for, high nibble 0 in a register byte (30_encoding.md R94, R81). -/
def AsmLineIs (labels : List (Nat × Word)) : AsmLine → Instr → Prop
  | .nop, i => i = .nop
  | .sys n, i => i = .sys n
  | .push r, i => i = .push 0#4 (tableIndex r)
  | .pushi v, i => ∃ w, AsmValueIs labels v w ∧ i = .pushi w
  | .pop r, i => i = .pop 0#4 (tableIndex r)
  | .addi r v, i => ∃ w, AsmValueIs labels v w ∧ i = .addi w 0#4 (tableIndex r)
  | .cmp s d, i => i = .cmp (tableIndex s) (tableIndex d)
  | .cmpi r v, i => ∃ w, AsmValueIs labels v w ∧ i = .cmpi w 0#4 (tableIndex r)
  | .andi r v, i => ∃ w, AsmValueIs labels v w ∧ i = .andi w 0#4 (tableIndex r)
  | .ori r v, i => ∃ w, AsmValueIs labels v w ∧ i = .ori w 0#4 (tableIndex r)
  | .branch v, i => ∃ w, AsmValueIs labels v w ∧ i = .branch w
  | .branchLessThan v, i => ∃ w, AsmValueIs labels v w ∧ i = .branchLessThan w
  | .branchGreaterThan v, i => ∃ w, AsmValueIs labels v w ∧ i = .branchGreaterThan w
  | .branchEqualTo v, i => ∃ w, AsmValueIs labels v w ∧ i = .branchEqualTo w
  | .branchNotEqualTo v, i => ∃ w, AsmValueIs labels v w ∧ i = .branchNotEqualTo w
  | .byte _, _ | .label _, _ => False

/-- A run is successful when its outcome is Halted (70_reset_and_hazards.md R267). -/
def RunResult.success : RunResult → Bool
  | .halted _ => true
  | .pcOutOfRange _ | .faulted _ _ _ | .refused _ | .unfinished _ => false

end Sys2Proof.Machine
end

