-- ==== Sys2Proof/Certificates/Slice0/Obligations.lean ====
section
/-! DEFINITION. The statements for the provers, each from the numbered rules its docstring cites. -/

open Sys2Proof Sys2Proof.Machine

/-! ### Encoding -/

/-- Decoding undoes encoding, for every instruction, every operand value and every well-formed opcode map (R80, R81,
R84, R86, R87). -/
def Obligations.DecodeEncodeAgree : Prop :=
  ∀ m : OpcodeMap, m.wf = true → ∀ (i : Instr) (rest : List Byte), decode m (encode m i ++ rest) = .ok (i, rest)

/-- Whatever decodes is the encoding of what it decodes to, under every map: no bit of an accepted word is dropped. -/
def Obligations.DecodedBytesAreTheEncoding : Prop :=
  ∀ (m : OpcodeMap) (bs : List Byte) (i : Instr) (rest : List Byte),
    decode m bs = .ok (i, rest) → bs = encode m i ++ rest

/-- The length of an instruction is a function of its opcode byte alone (R85, R112). -/
def Obligations.LengthIsFixedByTheOpcode : Prop :=
  ∀ (m : OpcodeMap) (op : Byte) (bs bs' : List Byte) (i i' : Instr) (rest rest' : List Byte),
    decode m (op :: bs) = .ok (i, rest) → decode m (op :: bs') = .ok (i', rest') →
    bs.length + rest'.length = bs'.length + rest.length ∧
      (op :: bs).length = rest.length +
        (match i.mnemonic with
          | .nop | .add => 1
          | .sys | .push | .pop | .cmp => 2
          | .pushi | .branch | .branchLessThan | .branchGreaterThan | .branchEqualTo | .branchNotEqualTo => 3
          | .addi | .cmpi | .andi | .ori => 4)

/-- Words written out from the worked examples of the rules decode to the instruction they stand for, under the default
map (the spec's decision D3, log 5). -/
def Obligations.ExampleWordsDecode : Prop :=
  decode defaultOpcodeMap [0x31#8, 0xFF#8, 0xFF#8, 0x01#8] = .ok (.addi 0xFFFF#16 0#4 1#4, []) ∧
  decode defaultOpcodeMap [0x60#8, 0x12#8] = .ok (.cmp 1#4 2#4, []) ∧
  decode defaultOpcodeMap [0x52#8, 0x01#8, 0x00#8] = .ok (.branchGreaterThan 0x0100#16, []) ∧
  decode defaultOpcodeMap [0x10#8, 0x32#8] = .ok (.push 3#4 2#4, []) ∧
  decode defaultOpcodeMap [0x04#8, 0x01#8] = .ok (.sys 0x01#8, []) ∧
  decode defaultOpcodeMap [0x55#8, 0x00#8, 0x20#8] = .error (.unknownOpcode 0x55#8)

/-- The index table: index k names its register, and 0 and 8 to 15 name none (R113, R31). -/
def Obligations.ResolveIsTheIndexTable : Prop :=
  (∀ (i : Nibble) (x : Reg), resolve i = some x ↔
    i.toNat = (match x with | .x0 => 1 | .x1 => 2 | .x2 => 3 | .x3 => 4 | .sp => 5 | .bp => 6 | .pc => 7)) ∧
  ∀ i : Nibble, resolve i = none ↔ i.toNat = 0 ∨ 8 ≤ i.toNat

/-! ### Fetch, step, run loop -/

/-- `fetch_byte()`: the byte at `bp +nat pc`, unreduced, then pc + 1 modulo 65536; a MemFault of kind fetch, with the log
so far, at N and above (R110; the unreduced sum and the fault are the spec's decisions D7 and D6, logs 12 and 11). -/
def Obligations.FetchByteReadsAtBpPlusPc : Prop :=
  ∀ s : State,
    (∀ b, s.byteAt ((s.reg .bp).toNat + (s.reg .pc).toNat) = some b →
      ∃ t, fetchByte s = .ok (b, t) ∧ (t.reg .pc).toNat = ((s.reg .pc).toNat + 1) % 65536 ∧ OnlyRegs [.pc] s t) ∧
    (s.memSize ≤ (s.reg .bp).toNat + (s.reg .pc).toNat →
      fetchByte s = .error (.memFault ((s.reg .bp).toNat + (s.reg .pc).toNat) .fetch s.log))

/-- A 16-bit operand is two fetched bytes, the first the high one, and pc ends 2 further (R111, R84). -/
def Obligations.FetchedWordIsBigEndian : Prop :=
  ∀ (s : State) (hi lo : Byte), CodeAt s [hi, lo] →
    ∃ t, fetchBytes 2 s = .ok ([hi, lo], t) ∧ t.reg .pc = s.reg .pc + 2 ∧ OnlyRegs [.pc] s t ∧
      (operandWord [hi, lo]).toNat = 256 * hi.toNat + lo.toNat

/-- A step runs the decoded instruction: where the loop goes on and the bytes at the fetch addresses decode to `i`,
`step` is `exec i` on the state with the trace emitted and pc past the instruction (R116, R117, R118). -/
def Obligations.StepRunsTheDecodedInstruction : Prop :=
  ∀ (s : State) (bs : List Byte) (i : Instr), LoopGoesOn s → CodeAt s bs →
    decode s.params.opcodeMap bs = .ok (i, []) → step s = exec i (afterFetch s bs.length)

/-- An opcode byte that matches no entry of the map is reported; no operand byte is consumed, pc advances by 1 and
nothing else changes (R121) but the trace emitted before the fetch where the flag byte is 0x02 (R118; the spec's
decisions D8 and D15, logs 8 and 18). The byte is the one at the unreduced `bp + pc` (D7, log 12). The byte of the
reserved ADD has a statement of its own, ReservedAddCompletes. -/
def Obligations.UnknownOpcodeIsReportedAndSkipped : Prop :=
  ∀ (s : State) (op : Byte), LoopGoesOn s → CodeAt s [op] →
    (∀ k, opcodeByte s.params.opcodeMap k ≠ op) →
    ∃ t, step s = .next t ∧ t.reg .pc = s.reg .pc + 1 ∧ SameRegsBut [.pc] s t ∧ t.flags = s.flags ∧
      SameMemory s t ∧ t.memSize = s.memSize ∧ t.params = s.params ∧
      t.log = logAfterTrace s ++ [.diag (.unknownOpcode op)]

/-- The loop bound tests the raw pc and the fetch uses bp + pc: in range by the one and out of range by the other, the
opcode fetch faults; out of range by the raw pc, the run stops with PcOutOfRange (R122; the spec's decisions D6, D7 and
D14, logs 11, 12 and 16). The fault carries the log with the step's trace (R237, log 18). -/
def Obligations.LoopBoundAndFetchAddressDisagree : Prop :=
  ∀ s : State, s.flag .halt = false →
    ((s.reg .pc).toNat < s.memSize → s.memSize ≤ (s.reg .bp).toNat + (s.reg .pc).toNat →
      step s = .fault (.memFault ((s.reg .bp).toNat + (s.reg .pc).toNat) .fetch (logAfterTrace s))) ∧
    (s.memSize ≤ (s.reg .pc).toNat → step s = .fault .pcOutOfRange)

/-- The first operand byte whose fetch address is at N or above ends the step with its MemFault, which carries the log
with the step's trace (R62, R123, R237; the spec's decisions D6, D7 and D15, logs 11, 12 and 18). -/
def Obligations.OperandFetchFaults : Prop :=
  ∀ (s : State) (k : Mnemonic) (op : Byte) (bs : List Byte), LoopGoesOn s →
    decodeOpcode s.params.opcodeMap op = some k → CodeAt s (op :: bs) → bs.length < operandLength k →
    s.memSize ≤ codeAddr s (1 + bs.length) →
    step s = .fault (.memFault (codeAddr s (1 + bs.length)) .fetch (logAfterTrace s))

/-- `run()`: HALT ends it Halted, then a raw pc at N or above ends it PcOutOfRange, and otherwise it runs one step and
goes on, or ends with the step's MemFault and its log, or with the step's refusal (R120, R237; the outcomes' names and
order are the spec's decision D17, log 16). -/
def Obligations.RunRepeatsStepUntilItEnds : Prop :=
  ∀ (n : Nat) (s : State),
    (s.flag .halt = true → run n s = .halted s) ∧
    (s.flag .halt = false → s.memSize ≤ (s.reg .pc).toNat → run n s = .pcOutOfRange s) ∧
    (LoopGoesOn s →
      (∀ t, stepInstr s = .next t → run (n + 1) s = run n t) ∧
      (∀ f, stepInstr s = .fault f → ∃ a k log, f = .memFault a k log ∧ run (n + 1) s = .faulted a k log) ∧
      (∀ r, stepInstr s = .refused r → run (n + 1) s = .refused r))

/-- With N = 65536 only HALT or a fault ends a run, and with N = 0 no step runs (R125). -/
def Obligations.LoopBoundAtTheEndsOfTheRange : Prop :=
  ∀ s : State, s.flag .halt = false →
    (s.memSize = 65536 → step s = stepInstr s) ∧ (s.memSize = 0 → step s = .fault .pcOutOfRange)

/-- A step emits the trace exactly when the whole flag byte is STEP_DEBUG alone, before anything else, and at most one
more event, which is no trace (R118, R237; the bit position is the spec's decision D8, log 8). -/
def Obligations.StepEmitsTraceThenAtMostOneEvent : Prop :=
  ∀ s t : State, step s = .next t →
    t.log = logAfterTrace s ∨
      ∃ e, t.log = logAfterTrace s ++ [e] ∧ ∀ regs flags, e ≠ .trace regs flags

/-! ### Whole-machine rules -/

/-- The invariant holds at reset: canonical memory, legal flags (R38, R46, R260). -/
def Obligations.ResetMeetsTheInvariant : Prop := State.reset.Inv

/-- Every step keeps the invariant: memory stays canonical, LESS_THAN and GREATER_THAN are never both set (R38), bits
7:4 of the flag byte stay 0 (R46). -/
def Obligations.StepKeepsTheInvariant : Prop :=
  ∀ s t : State, s.Inv → step s = .next t → t.Inv

/-- A run that ends Halted from a state with the invariant ends in one, with HALT set (R38, R46, R266). -/
def Obligations.HaltedRunKeepsTheInvariant : Prop :=
  ∀ (n : Nat) (s t : State), s.Inv → run n s = .halted t → t.Inv ∧ t.flag .halt = true

/-- Every step leaves the size of the address space and the parameters as they are (R9, R40). -/
def Obligations.StepKeepsSizeAndParams : Prop :=
  ∀ s t : State, step s = .next t → t.memSize = s.memSize ∧ t.params = s.params

/-- Only PUSH and PUSHI change memory (R66). -/
def Obligations.OnlyPushesWriteMemory : Prop :=
  ∀ (i : Instr) (s t : State), exec i s = .next t →
    (∀ h r, i ≠ .push h r) → (∀ imm, i ≠ .pushi imm) → SameMemory s t

/-- Which instruction writes which flag: HALT is only set, by SYS 0x00; STEP_DEBUG changes by SYS 0x02 alone; the
comparison flags change by a comparison or a branch alone (R36, R39). -/
def Obligations.FlagWriters : Prop :=
  ∀ (i : Instr) (s t : State), exec i s = .next t →
    (t.flag .halt = if i = .sys 0x00#8 then true else s.flag .halt) ∧
    (t.flag .stepDebug = if i = .sys 0x02#8 then !s.flag .stepDebug else s.flag .stepDebug) ∧
    ((match i with
      | .cmp _ _ | .cmpi _ _ _ | .branch _ | .branchLessThan _ | .branchGreaterThan _ | .branchEqualTo _
      | .branchNotEqualTo _ => False
      | _ => True) →
      t.flag .lessThan = s.flag .lessThan ∧ t.flag .greaterThan = s.flag .greaterThan)

/-- Which instruction writes which register, after its fetch (R32). -/
def Obligations.RegisterWriters : Prop :=
  ∀ (i : Instr) (s t : State) (q : Reg), exec i s = .next t → t.reg q ≠ s.reg q →
    match i with
    | .push _ _ | .pushi _ => q = .sp
    | .pop _ r => q = .sp ∨ resolve r = some q
    | .addi _ _ r | .andi _ _ r | .ori _ _ r => resolve r = some q
    | .branch _ | .branchLessThan _ | .branchGreaterThan _ | .branchEqualTo _ | .branchNotEqualTo _ => q = .pc
    | .nop | .sys _ | .add | .cmp _ _ | .cmpi _ _ _ => False

/-- The console port carries one byte for each SYS 0x01, the low byte of x0, and nothing else (R6, R212). -/
def Obligations.ConsoleCarriesOnlySysPutCharacter : Prop :=
  ∀ (i : Instr) (s t : State), exec i s = .next t →
    t.consolePort = s.consolePort ++
      (if i = .sys 0x01#8 then [BitVec.ofNat 8 ((s.reg .x0).toNat % 256)] else [])

/-- The log is written and never read: with another log the step does the same and appends the same events, or stops
with the same fault, to which the same events are appended, or with the same refusal (R43, R237). -/
def Obligations.LogIsNeverRead : Prop :=
  ∀ (s : State) (l : List Event),
    (∀ t, step s = .next t → ∃ es, t.log = s.log ++ es ∧ step { s with log := l } = .next { t with log := l ++ es }) ∧
    (∀ a k log, step s = .fault (.memFault a k log) →
      ∃ es, log = s.log ++ es ∧ step { s with log := l } = .fault (.memFault a k (l ++ es))) ∧
    (step s = .fault .halted → step { s with log := l } = .fault .halted) ∧
    (step s = .fault .pcOutOfRange → step { s with log := l } = .fault .pcOutOfRange) ∧
    ∀ r, step s = .refused r → step { s with log := l } = .refused r

/-- A step is refused only for a register byte with a non-zero high nibble under `REG_BYTE_HIGH_NIBBLE = refuse`
(R114, R235). -/
def Obligations.RefusedOnlyForARegisterByte : Prop :=
  ∀ (s : State) (r : Refusal), step s = .refused r →
    s.params.regByteHighNibble = .refuse ∧ ∃ h l : Nibble, h ≠ 0#4 ∧ r = .regByteHighNibble (byteOfNibbles h l)

/-- A step that begins faults only with a MemFault at an address of N or above, and its trace stands in the log the
fault carries, with no other event of the step (R62, R233, R237; the spec's decisions D6 and D15, logs 11 and 18). -/
def Obligations.FaultsNameAnAddressOutOfRange : Prop :=
  ∀ (s : State) (f : Fault), stepInstr s = .fault f →
    ∃ a k, f = .memFault a k (logAfterTrace s) ∧ s.memSize ≤ a

/-! ### Registers, flags, reset, launch -/

/-- Seven independent cells: a register holds what was last written to it, and no write reaches another (R30). -/
def Obligations.RegistersAreIndependentCells : Prop :=
  ∀ (s : State) (r q : Reg) (v : Word),
    (s.setReg r v).reg q = (if q = r then v else s.reg q) ∧ (s.setReg r v).flags = s.flags ∧
      SameMemLogParams s (s.setReg r v)

/-- Four independent flags, in the byte's bits 0 to 3 (R36; the positions are the spec's decision D8, log 8). -/
def Obligations.FlagsAreIndependentBits : Prop :=
  ∀ (s : State) (f g : Flag) (v : Bool),
    (s.setFlag f v).flag g = (if g = f then v else s.flag g) ∧
      (s.setFlag f v).flags.extractLsb' 4 4 = s.flags.extractLsb' 4 4 ∧
      SameRegsBut [] s (s.setFlag f v) ∧ SameMemLogParams s (s.setFlag f v) ∧
      s.flags.toNat % 16 = (s.flag .halt).toNat + 2 * (s.flag .stepDebug).toNat + 4 * (s.flag .lessThan).toNat +
        8 * (s.flag .greaterThan).toNat

/-- The state right after reset. x0 to x3, pc and the log are R260's; the flags 0 and bp 0 are the spec's decisions D9
and D10 (logs 9, 10); the parameters are R9's defaults by its decisions D3, D4 and D5 (logs 5, 6, 7); sp = 0 (log 2),
N = 65536 (log 1) and the empty image, by which every byte is the 0 of creation (log 3), are the model's choices. -/
def Obligations.ResetState : Prop :=
  (∀ r, State.reset.reg r = 0) ∧ State.reset.flags = 0 ∧ State.reset.log = [] ∧
    State.reset.params = defaultParams ∧ ∀ a, State.reset.byteAt a = if a < 65536 then some 0 else none

/-- Loading an image that fits copies it byte by byte from LOAD_ADDR and changes no other byte and nothing else
(R261). -/
def Obligations.LoadCopiesTheImage : Prop :=
  ∀ (addr : Nat) (image : List Byte) (s : State), s.mem.wf →
    addr + image.length ≤ s.memSize →
    ∃ t, loadImage addr image s = .next t ∧ (∀ k (h : k < image.length), t.byteAt (addr + k) = some image[k]) ∧
      (∀ a, a < addr ∨ addr + image.length ≤ a → t.byteAt a = s.byteAt a) ∧
      SameRegsBut [] s t ∧ t.flags = s.flags ∧ t.memSize = s.memSize ∧ t.log = s.log ∧ t.params = s.params

/-- An image that does not fit is refused as LaunchImageTooLarge (the spec's decision D18, log 20). -/
def Obligations.OversizedImageIsRefused : Prop :=
  ∀ (addr : Nat) (image : List Byte) (s : State), s.memSize < addr + image.length →
    loadImage addr image s = .refused .launchImageTooLarge

/-- The clean-entry state of a launch whose image fits (R276, R260; flags 0 is the spec's decision D9, log 9). -/
def Obligations.LaunchIsTheCleanEntryState : Prop :=
  ∀ l : Launch, l.wf = true →
    ∃ t, launch l = .next t ∧ (∀ r, r ≠ .sp → r ≠ .bp → t.reg r = 0) ∧ t.reg .sp = l.spInit ∧
      t.reg .bp = l.bpInit ∧ t.flags = 0 ∧ t.log = [] ∧ t.params = l.params ∧ t.memSize = l.memSize.val ∧ t.Inv ∧
      ∀ a, a < l.memSize.val →
        t.byteAt a = some (if l.loadAddr ≤ a then l.image.getD (a - l.loadAddr) 0 else 0)

/-- The host's moves in the order of the entry contract reach the launch's clean-entry state, with `run()` executing
(R262, R275). -/
def Obligations.HostMovesReachTheLaunch : Prop :=
  ∀ (l : Launch) (n : Nat) (t : State), launch l = .next t →
    ∃ c1 c2 c3 c4, hostMove (.seedSp l.spInit) (Session.create l.memSize l.params n) = .next c1 ∧
      hostMove (.setBp l.bpInit) c1 = .next c2 ∧ hostMove (.load l.loadAddr l.image) c2 = .next c3 ∧
      hostMove .startRun c3 = .next c4 ∧ c4 = { phase := .running, machine := t, seed := n }

/-- The host's moves are made in the order of the entry contract and no other: create, seed sp, set bp or leave it at
its default, load, run, then read and release; every other move is refused (R262, R275; the spec's decisions D10 and D20,
logs 10 and 19). -/
def Obligations.HostMovesKeepTheirOrder : Prop :=
  ∀ (c : Session) (mv : HostMove),
    (∀ d, hostMove mv c = .next d →
      match c.phase with
      | .created => d.phase = .spSeeded ∧ ∃ v, mv = .seedSp v
      | .spSeeded => (d.phase = .bpSet ∧ ∃ v, mv = .setBp v) ∨ (d.phase = .loaded ∧ ∃ a image, mv = .load a image)
      | .bpSet => d.phase = .loaded ∧ ∃ a image, mv = .load a image
      | .loaded => d.phase = .running ∧ mv = .startRun
      | .ended _ => (d = c ∧ mv = .read) ∨ (d.phase = .released ∧ mv = .release)
      | .running | .released => False) ∧
    (∀ f, hostMove mv c ≠ .fault f) ∧
    ∀ r, hostMove mv c = .refused r →
      r = (if c.phase = .running then .hostAccessDuringRun else .hostOutsideContract) ∨
        (r = .launchImageTooLarge ∧ (c.phase = .spSeeded ∨ c.phase = .bpSet) ∧
          ∃ a image, mv = .load a image ∧ c.machine.memSize < a + image.length)

/-- While `run()` executes every host move is refused, and the machine's own turn is one step. Halted and PcOutOfRange
end the run with the state they were found in; a MemFault ends it with the fault, and nothing is said of the registers,
flags and memory it leaves (R123, R267). After the run a second one is refused (R75, R235; the spec's decisions D6 and
D20, logs 11, 19 and 28). -/
def Obligations.HostHasNoMoveDuringARun : Prop :=
  ∀ c : Session,
    (c.phase = .running → ∀ mv, hostMove mv c = .refused .hostAccessDuringRun) ∧
    (c.phase = .running → ∀ f, (f = .halted ∨ f = .pcOutOfRange) → step c.machine = .fault f →
      machineMove c = .next { phase := .ended f, machine := c.machine, seed := c.seed }) ∧
    (c.phase = .running → ∀ a k log, step c.machine = .fault (.memFault a k log) →
      ∃ d, machineMove c = .next d ∧ d.phase = .ended (.memFault a k log)) ∧
    (c.phase = .running → ∀ t, step c.machine = .next t →
      machineMove c = .next { phase := .running, machine := t, seed := c.seed }) ∧
    (c.phase ≠ .running → machineMove c = .refused .hostOutsideContract) ∧
    (∀ f, c.phase = .ended f → hostMove .startRun c = .refused .hostOutsideContract)

/-! ### Stack -/

/-- `push16(v)`: both addresses below N, high byte at sp, low byte at sp + 1, sp + 2; else the MemFault of the first
address at N or above, with the log so far (R140; the fault is the spec's decision D6, log 11). -/
def Obligations.PushSixteen : Prop :=
  ∀ (v : Word) (s : State), s.mem.wf →
    ((s.reg .sp).toNat < s.memSize → (s.reg .sp + 1).toNat < s.memSize →
      ∃ t, push16 v s = .ok t ∧ Pushed v s t) ∧
    (s.memSize ≤ (s.reg .sp).toNat → push16 v s = .error (.memFault (s.reg .sp).toNat .write s.log)) ∧
    ((s.reg .sp).toNat < s.memSize → s.memSize ≤ (s.reg .sp + 1).toNat →
      push16 v s = .error (.memFault (s.reg .sp + 1).toNat .write s.log))

/-- `pop16()`: the low byte from sp - 1, the high byte from sp - 2, sp - 2, memory unchanged; else the MemFault of the
first address at N or above, with the log so far (R141; the fault is the spec's decision D6, log 11). -/
def Obligations.PopSixteen : Prop :=
  ∀ s : State,
    (∀ lo hi, s.byteAt (s.reg .sp - 1).toNat = some lo → s.byteAt (s.reg .sp - 2).toNat = some hi →
      ∃ v t, pop16 s = .ok (v, t) ∧ v.toNat = 256 * hi.toNat + lo.toNat ∧ t.reg .sp = s.reg .sp - 2 ∧
        OnlyRegs [.sp] s t) ∧
    (s.memSize ≤ (s.reg .sp - 1).toNat → pop16 s = .error (.memFault (s.reg .sp - 1).toNat .read s.log)) ∧
    ((s.reg .sp - 1).toNat < s.memSize → s.memSize ≤ (s.reg .sp - 2).toNat →
      pop16 s = .error (.memFault (s.reg .sp - 2).toNat .read s.log))

/-- The round-trip law: a pop after a push gives the value back and restores sp, across the wrap too (R146). -/
def Obligations.PopAfterPushGivesTheValueBack : Prop :=
  ∀ (v : Word) (s t : State), s.mem.wf → push16 v s = .ok t →
    ∃ u, pop16 t = .ok (v, u) ∧ SameRegsBut [] s u ∧ SameMemory t u ∧ u.flags = s.flags ∧ u.log = s.log

/-- PUSH r completes where both stack bytes are below N: the register's value before the push is pushed, whatever the
high nibble of the register byte; PUSHI pushes its immediate (R142, R143). -/
def Obligations.PushCompletes : Prop :=
  ∀ s : State, s.mem.wf → (s.reg .sp).toNat < s.memSize → (s.reg .sp + 1).toNat < s.memSize →
    (∀ h r x, resolve r = some x → ∃ t, exec (.push h r) s = .next t ∧ Pushed (s.reg x) s t) ∧
    ∀ imm, ∃ t, exec (.pushi imm) s = .next t ∧ Pushed imm s t

/-- POP r completes where both stack bytes are below N: the register gets the value, sp is lowered by 2 unless it is
the register (R144; the register byte is the spec's decision D4, log 6). -/
def Obligations.PopCompletes : Prop :=
  ∀ (s : State) (h r : Nibble) (x : Reg) (lo hi : Byte), NamesReg s h r x →
    s.byteAt (s.reg .sp - 1).toNat = some lo → s.byteAt (s.reg .sp - 2).toNat = some hi →
    ∃ t, exec (.pop h r) s = .next t ∧ (t.reg x).toNat = 256 * hi.toNat + lo.toNat ∧
      (x ≠ .sp → t.reg .sp = s.reg .sp - 2) ∧ OnlyRegs [.sp, x] s t

/-- Where PUSH, PUSHI and POP fault: the first stack address at N or above, kind write or read; the pop's fault comes
before an invalid register is looked at, and carries the log so far (R62, R142, R143, R144, R237; the fault is the spec's
decision D6, log 11). -/
def Obligations.StackInstructionsFault : Prop :=
  ∀ s : State,
    (s.memSize ≤ (s.reg .sp).toNat →
      (∀ h r x, resolve r = some x → exec (.push h r) s = .fault (.memFault (s.reg .sp).toNat .write s.log)) ∧
      ∀ imm, exec (.pushi imm) s = .fault (.memFault (s.reg .sp).toNat .write s.log)) ∧
    ((s.reg .sp).toNat < s.memSize → s.memSize ≤ (s.reg .sp + 1).toNat →
      (∀ h r x, resolve r = some x → exec (.push h r) s = .fault (.memFault (s.reg .sp + 1).toNat .write s.log)) ∧
      ∀ imm, exec (.pushi imm) s = .fault (.memFault (s.reg .sp + 1).toNat .write s.log)) ∧
    (s.memSize ≤ (s.reg .sp - 1).toNat →
      ∀ h r, exec (.pop h r) s = .fault (.memFault (s.reg .sp - 1).toNat .read s.log)) ∧
    ((s.reg .sp - 1).toNat < s.memSize → s.memSize ≤ (s.reg .sp - 2).toNat →
      ∀ h r, exec (.pop h r) s = .fault (.memFault (s.reg .sp - 2).toNat .read s.log))

/-- A pushed byte is what the next fetch of its address reads, the high byte at sp and the low byte at sp + 1: code may
be written by a push (R73). -/
def Obligations.PushedByteIsFetchedNext : Prop :=
  ∀ (v : Word) (s t : State), s.mem.wf → push16 v s = .ok t →
    (fetchAddr t = (s.reg .sp).toNat → ∃ u, fetchByte t = .ok (BitVec.ofNat 8 (v.toNat / 256), u)) ∧
    (fetchAddr t = (s.reg .sp + 1).toNat → ∃ u, fetchByte t = .ok (BitVec.ofNat 8 (v.toNat % 256), u))

/-! ### Register operands that resolve to none -/

/-- With an operand that resolves to none: one report with the index, the register effect skipped, what the rule orders
before it done (the pop of POP, the flag clear of CMP and CMPI), and the machine goes on (R115, R231; the register byte
is the spec's decision D4, log 6, CMPI's clear D13, log 15, one report for CMP D16, log 17). -/
def Obligations.InvalidRegisterIsReportedAndSkipped : Prop :=
  ∀ (s : State) (imm : Word) (h r : Nibble),
    (resolve r = none → ∃ t, exec (.push h r) s = .next t ∧ OnlyEvent (.diag (.invalidRegister r)) s t) ∧
    (NamesNone s h r →
      (∃ t, exec (.addi imm h r) s = .next t ∧ OnlyEvent (.diag (.invalidRegister r)) s t) ∧
      (∃ t, exec (.andi imm h r) s = .next t ∧ OnlyEvent (.diag (.invalidRegister r)) s t) ∧
      (∃ t, exec (.ori imm h r) s = .next t ∧ OnlyEvent (.diag (.invalidRegister r)) s t) ∧
      (∃ t u, exec (.cmpi imm h r) s = .next t ∧ Compared 0 s u ∧ OnlyEvent (.diag (.invalidRegister r)) u t) ∧
      ((s.reg .sp - 1).toNat < s.memSize → (s.reg .sp - 2).toNat < s.memSize →
        ∃ t u, exec (.pop h r) s = .next t ∧ u.reg .sp = s.reg .sp - 2 ∧ OnlyRegs [.sp] s u ∧
          OnlyEvent (.diag (.invalidRegister r)) u t)) ∧
    ((resolve h = none ∨ resolve r = none) →
      ∃ t u, exec (.cmp h r) s = .next t ∧ Compared 0 s u ∧
        OnlyEvent (.diag (.invalidRegister (if resolve h = none then h else r))) u t)

/-- Under `REG_BYTE_HIGH_NIBBLE = refuse` a register byte with a non-zero high nibble is refused by name (R114, R235;
the parameter is the spec's decision D4, log 6). -/
def Obligations.HighNibbleIsRefusedUnderRefuse : Prop :=
  ∀ (s : State) (imm : Word) (h r : Nibble), h ≠ 0#4 → s.params.regByteHighNibble = .refuse →
    exec (.addi imm h r) s = .refused (.regByteHighNibble (byteOfNibbles h r)) ∧
    exec (.andi imm h r) s = .refused (.regByteHighNibble (byteOfNibbles h r)) ∧
    exec (.ori imm h r) s = .refused (.regByteHighNibble (byteOfNibbles h r)) ∧
    exec (.cmpi imm h r) s = .refused (.regByteHighNibble (byteOfNibbles h r)) ∧
    ((s.reg .sp - 1).toNat < s.memSize → (s.reg .sp - 2).toNat < s.memSize →
      exec (.pop h r) s = .refused (.regByteHighNibble (byteOfNibbles h r)))

/-! ### ALU -/

/-- `alu_add` is the sum modulo 65536, `alu_and` and `alu_or` are bit by bit (R170, R171). -/
def Obligations.AluAddAndBitwiseFunctions : Prop :=
  ∀ a b : Word, (aluAdd a b).toNat = (a.toNat + b.toNat) % 65536 ∧
    (∀ k, (aluAnd a b).getLsbD k = (a.getLsbD k && b.getLsbD k)) ∧
    ∀ k, (aluOr a b).getLsbD k = (a.getLsbD k || b.getLsbD k)

/-- `set_cmp_flags(c)`, called with both comparison flags clear: NEG sets LESS_THAN, POS sets GREATER_THAN, ZERO sets
neither, and nothing else changes (R173). -/
def Obligations.SetCmpFlagsSetsAtMostOne : Prop :=
  ∀ (c : CmpResult) (s : State), s.flag .lessThan = false → s.flag .greaterThan = false →
    (setCmpFlags c s).flag .lessThan = decide (c = .neg) ∧
      (setCmpFlags c s).flag .greaterThan = decide (c = .pos) ∧
      SameOtherFlags s (setCmpFlags c s) ∧ SameRegsBut [] s (setCmpFlags c s) ∧
      SameMemLogParams s (setCmpFlags c s)

/-- ADDI r, imm completes: the register is the sum modulo 65536, nothing else changes, pc and sp and bp as any register
(R160, R170). -/
def Obligations.AddImmediateCompletes : Prop :=
  ∀ (s : State) (imm : Word) (h r : Nibble) (x : Reg), NamesReg s h r x →
    ∃ t, exec (.addi imm h r) s = .next t ∧
      (t.reg x).toNat = ((s.reg x).toNat + imm.toNat) % 65536 ∧ OnlyRegs [x] s t

/-- ANDI and ORI complete: the register is the bitwise AND or OR, nothing else changes (R164, R165, R171). -/
def Obligations.BitwiseImmediateCompletes : Prop :=
  ∀ (s : State) (imm : Word) (h r : Nibble) (x : Reg), NamesReg s h r x →
    (∃ t, exec (.andi imm h r) s = .next t ∧
      (∀ k, (t.reg x).getLsbD k = ((s.reg x).getLsbD k && imm.getLsbD k)) ∧ OnlyRegs [x] s t) ∧
    ∃ t, exec (.ori imm h r) s = .next t ∧
      (∀ k, (t.reg x).getLsbD k = ((s.reg x).getLsbD k || imm.getLsbD k)) ∧ OnlyRegs [x] s t

/-- The reserved ADD completes: its byte is reported as an unknown opcode and nothing else changes; a step at its byte
consumes that byte alone (R161, R89; the spec's decision D12, log 14). -/
def Obligations.ReservedAddCompletes : Prop :=
  (∀ s : State, ∃ t, exec .add s = .next t ∧
    OnlyEvent (.diag (.unknownOpcode (0x3#4 ++ s.params.opcodeMap.add))) s t) ∧
  ∀ s : State, s.params.opcodeMap.wf = true → LoopGoesOn s → CodeAt s [0x3#4 ++ s.params.opcodeMap.add] →
    step s = exec .add (afterFetch s 1)

/-- CMP s, d completes: LESS_THAN and GREATER_THAN say the sign of source minus destination under `CMP_MODE`, whatever
they were; no register is written (R162, R172, R173; `CMP_MODE` is the spec's decision D5, log 7, its two's-complement
reading log 22). -/
def Obligations.CompareRegistersCompletes : Prop :=
  ∀ (s : State) (a b : Nibble) (x y : Reg), resolve a = some x → resolve b = some y →
    ∃ t, exec (.cmp a b) s = .next t ∧ Compared (specDelta s.params.cmpMode (s.reg x) (s.reg y)) s t

/-- CMPI r, imm completes: the flags say the sign of register minus immediate; no register is written (R163, R172,
R173; decisions D4, D5, logs 6, 7, 22). -/
def Obligations.CompareImmediateCompletes : Prop :=
  ∀ (s : State) (imm : Word) (h r : Nibble) (x : Reg), NamesReg s h r x →
    ∃ t, exec (.cmpi imm h r) s = .next t ∧ Compared (specDelta s.params.cmpMode (s.reg x) imm) s t

/-- The three readings of a comparison agree when the operands agree in bit 15, and on equality always: every mode
answers ZERO exactly when a = b (R174). -/
def Obligations.CmpModesAgreeOnEqualSigns : Prop :=
  ∀ (p q : CmpMode) (a b : Word),
    (a.getLsbD 15 = b.getLsbD 15 → aluCmp p a b = aluCmp q a b) ∧ (aluCmp p a b = .zero ↔ a = b)

/-! ### Branches -/

/-- Each branch whose condition holds completes as a taken branch: BRANCH always, the others on LESS_THAN,
GREATER_THAN, EQUAL (neither), NOT_EQUAL (either) (R190, R191, R192 to R196). -/
def Obligations.TakenBranchCompletes : Prop :=
  ∀ (s : State) (w : Word),
    (∃ t, exec (.branch w) s = .next t ∧ BranchTaken w s t) ∧
    (s.flag .lessThan = true → ∃ t, exec (.branchLessThan w) s = .next t ∧ BranchTaken w s t) ∧
    (s.flag .greaterThan = true → ∃ t, exec (.branchGreaterThan w) s = .next t ∧ BranchTaken w s t) ∧
    (s.flag .lessThan = false → s.flag .greaterThan = false →
      ∃ t, exec (.branchEqualTo w) s = .next t ∧ BranchTaken w s t) ∧
    (s.flag .lessThan = true ∨ s.flag .greaterThan = true →
      ∃ t, exec (.branchNotEqualTo w) s = .next t ∧ BranchTaken w s t)

/-- A conditional branch whose condition fails completes and changes nothing: pc is already past its target (R190; the
flags kept is the spec's decision D11, log 13). -/
def Obligations.UntakenBranchChangesNothing : Prop :=
  ∀ (s : State) (w : Word),
    (s.flag .lessThan = false → exec (.branchLessThan w) s = .next s) ∧
    (s.flag .greaterThan = false → exec (.branchGreaterThan w) s = .next s) ∧
    (s.flag .lessThan = true ∨ s.flag .greaterThan = true → exec (.branchEqualTo w) s = .next s) ∧
    (s.flag .lessThan = false → s.flag .greaterThan = false → exec (.branchNotEqualTo w) s = .next s)

/-! ### NOP and SYS -/

/-- NOP: a step at the byte 0x00 leaves pc one further and changes nothing else but R118's trace where the flag byte is
0x02 (the spec's decisions D8 and D15, logs 8 and 18); its meaning changes nothing (R119). -/
def Obligations.NopOnlyAdvancesPc : Prop :=
  (∀ s : State, exec .nop s = .next s) ∧
    ∀ s : State, s.params.opcodeMap.wf = true → LoopGoesOn s → CodeAt s [0x00#8] →
      step s = .next (afterFetch s 1)

/-- SYS 0x00 sets HALT and nothing else, with pc past its two bytes; HALT set already, it has no further effect; the
turn of the run loop after it ends the run Halted, and no instruction clears HALT (R211; the stop named Halted of a turn
of the loop is the model's form of an outcome, log 16, and its name the spec's decision D17; the trace the step emits on
the flag byte 0x02 is R118's, decisions D8 and D15, logs 8 and 18). -/
def Obligations.SysHaltSetsHalt : Prop :=
  ∀ s : State,
    (∃ t, exec (.sys 0x00#8) s = .next t ∧ t.flag .halt = true ∧
      t.flag .stepDebug = s.flag .stepDebug ∧ t.flag .lessThan = s.flag .lessThan ∧
      t.flag .greaterThan = s.flag .greaterThan ∧ t.flags.extractLsb' 4 4 = s.flags.extractLsb' 4 4 ∧
      SameRegsBut [] s t ∧ SameMemLogParams s t ∧ (s.flag .halt = true → t = s) ∧ step t = .fault .halted ∧
      ∀ i u, exec i t = .next u → u.flag .halt = true) ∧
    (s.params.opcodeMap.wf = true → LoopGoesOn s → CodeAt s [0x04#8, 0x00#8] →
      step s = exec (.sys 0x00#8) (afterFetch s 2))

/-- SYS 0x01 emits the low byte of x0 to the console port and changes nothing else (R210, R212). -/
def Obligations.SysPutCharacterEmits : Prop :=
  ∀ s : State, ∃ t, exec (.sys 0x01#8) s = .next t ∧
    OnlyEvent (.console (BitVec.ofNat 8 ((s.reg .x0).toNat % 256))) s t

/-- SYS 0x02 inverts STEP_DEBUG and nothing else, and twice restores the state (R210, R213). -/
def Obligations.SysToggleInvertsStepDebug : Prop :=
  ∀ s : State, ∃ t, exec (.sys 0x02#8) s = .next t ∧ t.flag .stepDebug = !s.flag .stepDebug ∧
    t.flag .halt = s.flag .halt ∧ t.flag .lessThan = s.flag .lessThan ∧
    t.flag .greaterThan = s.flag .greaterThan ∧ t.flags.extractLsb' 4 4 = s.flags.extractLsb' 4 4 ∧
    SameRegsBut [] s t ∧ SameMemLogParams s t ∧ exec (.sys 0x02#8) t = .next s

/-- SYS n with n from 0x03 to 0xFF consumes its two bytes and does nothing (R214, R90); the step emits R118's trace where
the flag byte is 0x02 (the spec's decisions D8 and D15, logs 8 and 18). -/
def Obligations.SysOtherDoesNothing : Prop :=
  ∀ (s : State) (n : Byte), 3 ≤ n.toNat →
    exec (.sys n) s = .next s ∧
    (s.params.opcodeMap.wf = true → LoopGoesOn s → CodeAt s [0x04#8, n] → step s = .next (afterFetch s 2))

/-! ### The assembler -/

/-- A line of assembly has the bytes of the instruction it stands for: that instruction's mnemonic, the index of each
register in the table of R31, the value of its operand, high nibble 0 in a register byte, and its length; `.byte` is its
byte and a label has none (R85, R94, R31; the assembler is out of the spec's scope by R4 and its syntax the spec's decision
D19; lines as data, and the first of two definitions of a label, are the model's choices, log 24). -/
def Obligations.AssembledLineDecodes : Prop :=
  ∀ (m : OpcodeMap) (labels : List (Nat × Word)),
    (∀ (line : AsmLine) (i : Instr), AsmLineIs labels line i →
      ∃ bs, asmBytes m labels line = some bs ∧ (m.wf = true → decode m bs = .ok (i, [])) ∧
        bs.length = (match line with
          | .nop => 1
          | .sys _ | .push _ | .pop _ | .cmp _ _ => 2
          | .pushi _ | .branch _ | .branchLessThan _ | .branchGreaterThan _ | .branchEqualTo _
          | .branchNotEqualTo _ => 3
          | .addi _ _ | .cmpi _ _ | .andi _ _ | .ori _ _ => 4
          | .byte _ | .label _ => 0)) ∧
    (∀ b, asmBytes m labels (.byte b) = some [b]) ∧ (∀ l, asmBytes m labels (.label l) = some []) ∧
    ∀ line, asmBytes m labels line = none → ∀ i, ¬ AsmLineIs labels line i
end

