-- ==== Sys2Proof/Laws/Decode.lean ====
section
/-! SUPPORT. The small lemmas of decoding: nibbles and bytes put together and taken apart, and what the opcode lookup
answers. -/

namespace Sys2Proof

@[simp] theorem hiByte_wordOfBytes (hi lo : Byte) : hiByte (wordOfBytes hi lo) = hi := by
  ext i h
  simp only [hiByte, wordOfBytes, BitVec.getElem_extractLsb', BitVec.getLsbD_append]
  simp [show ¬ 8 + i < 8 by omega, BitVec.getLsbD_eq_getElem h]

@[simp] theorem loByte_wordOfBytes (hi lo : Byte) : loByte (wordOfBytes hi lo) = lo := by
  ext i h
  simp only [loByte, wordOfBytes, BitVec.getElem_extractLsb', BitVec.getLsbD_append]
  simp [h]

@[simp] theorem wordOfBytes_hiByte_loByte (v : Word) : wordOfBytes (hiByte v) (loByte v) = v := by
  apply BitVec.eq_of_getLsbD_eq
  intro i h
  simp only [hiByte, loByte, wordOfBytes, BitVec.getLsbD_append, BitVec.getLsbD_extractLsb']
  split
  · simp [*]
  · simp [show i - 8 < 8 by omega, show 8 + (i - 8) = i by omega]

@[simp] theorem hiNibble_byteOfNibbles (h l : Nibble) : hiNibble (byteOfNibbles h l) = h := by
  ext i hi
  simp only [hiNibble, byteOfNibbles, BitVec.getElem_extractLsb', BitVec.getLsbD_append]
  simp [show ¬ 4 + i < 4 by omega, BitVec.getLsbD_eq_getElem hi]

@[simp] theorem loNibble_byteOfNibbles (h l : Nibble) : loNibble (byteOfNibbles h l) = l := by
  ext i hi
  simp only [loNibble, byteOfNibbles, BitVec.getElem_extractLsb', BitVec.getLsbD_append]
  simp [hi]

@[simp] theorem byteOfNibbles_hiNibble_loNibble (b : Byte) : byteOfNibbles (hiNibble b) (loNibble b) = b := by
  apply BitVec.eq_of_getLsbD_eq
  intro i h
  simp only [hiNibble, loNibble, byteOfNibbles, BitVec.getLsbD_append, BitVec.getLsbD_extractLsb']
  split
  · simp [*]
  · simp [show i - 4 < 4 by omega, show 4 + (i - 4) = i by omega]

/-- The list of mnemonics names every one. -/
theorem mem_allMnemonics (k : Mnemonic) : k ∈ allMnemonics := by cases k <;> decide

/-- What the lookup finds has that opcode byte (30_encoding.md R87). -/
theorem decodeOpcode_sound {m : OpcodeMap} {op : Byte} {k : Mnemonic} (h : decodeOpcode m op = some k) :
    opcodeByte m k = op := by
  simpa using List.find?_some h

/-- The lookup finds nothing exactly for a byte of no mnemonic (R88). -/
theorem decodeOpcode_none {m : OpcodeMap} {op : Byte} : decodeOpcode m op = none ↔ ∀ k, opcodeByte m k ≠ op := by
  simp only [decodeOpcode, List.find?_eq_none, beq_iff_eq]
  exact ⟨fun h k => h k (mem_allMnemonics k), fun h k _ => h k⟩

/-- Under a well-formed map no two mnemonics share a byte. -/
theorem opcodeByte_injective {m : OpcodeMap} (hm : m.wf = true) {k l : Mnemonic}
    (h : opcodeByte m k = opcodeByte m l) : k = l :=
  List.inj_on_of_nodup_map (by simpa [OpcodeMap.wf] using hm) (mem_allMnemonics k) (mem_allMnemonics l) h

/-- Under a well-formed map the lookup finds the mnemonic of its byte (R86, R87). -/
theorem decodeOpcode_opcodeByte {m : OpcodeMap} (hm : m.wf = true) (k : Mnemonic) :
    decodeOpcode m (opcodeByte m k) = some k := by
  cases hd : decodeOpcode m (opcodeByte m k) with
  | none => exact absurd rfl (decodeOpcode_none.1 hd k)
  | some l => rw [opcodeByte_injective hm (decodeOpcode_sound hd)]

/-- The default opcode map is well formed. -/
theorem defaultOpcodeMap_wf : defaultOpcodeMap.wf = true := by decide

end Sys2Proof
end

