-- ==== Sys2Proof/Laws/State.lean ====
section
/-! SUPPORT. One lemma for each field under each update of the state, so that no proof unfolds a record update. -/

namespace Sys2Proof.Machine

section SetReg
variable (s : State) (r : Reg) (v : Word)

@[simp] theorem State.setReg_flags : (s.setReg r v).flags = s.flags := by cases r <;> rfl
@[simp] theorem State.setReg_mem : (s.setReg r v).mem = s.mem := by cases r <;> rfl
@[simp] theorem State.setReg_log : (s.setReg r v).log = s.log := by cases r <;> rfl
@[simp] theorem State.setReg_params : (s.setReg r v).params = s.params := by cases r <;> rfl
@[simp] theorem State.setReg_memSize : (s.setReg r v).memSize = s.memSize := by cases r <;> rfl
@[simp] theorem State.setReg_byteAt (a : Nat) : (s.setReg r v).byteAt a = s.byteAt a := by cases r <;> rfl
@[simp] theorem State.setReg_flag (f : Flag) : (s.setReg r v).flag f = s.flag f := by cases r <;> rfl

theorem State.reg_setReg (q : Reg) : (s.setReg r v).reg q = if q = r then v else s.reg q := by
  cases r <;> cases q <;> rfl

@[simp] theorem State.reg_setReg_same : (s.setReg r v).reg r = v := by cases r <;> rfl

@[simp] theorem State.reg_setReg_other {q : Reg} (h : q ≠ r) : (s.setReg r v).reg q = s.reg q := by
  rw [State.reg_setReg, if_neg h]

end SetReg

section Emit
variable (s : State) (e : Event)

@[simp] theorem State.emit_regs : (s.emit e).regs = s.regs := rfl
@[simp] theorem State.emit_flags : (s.emit e).flags = s.flags := rfl
@[simp] theorem State.emit_mem : (s.emit e).mem = s.mem := rfl
@[simp] theorem State.emit_log : (s.emit e).log = s.log ++ [e] := rfl
@[simp] theorem State.emit_params : (s.emit e).params = s.params := rfl
@[simp] theorem State.emit_memSize : (s.emit e).memSize = s.memSize := rfl
@[simp] theorem State.emit_byteAt (a : Nat) : (s.emit e).byteAt a = s.byteAt a := rfl
@[simp] theorem State.emit_flag (f : Flag) : (s.emit e).flag f = s.flag f := rfl
@[simp] theorem State.emit_reg (r : Reg) : (s.emit e).reg r = s.reg r := by cases r <;> rfl

end Emit

section PutByte
variable (s : State) (a : Nat) (b : Byte)

@[simp] theorem State.putByte_regs : (s.putByte a b).regs = s.regs := rfl
@[simp] theorem State.putByte_flags : (s.putByte a b).flags = s.flags := rfl
@[simp] theorem State.putByte_cells : (s.putByte a b).mem.cells = cellsWrite s.mem.cells a b := rfl
@[simp] theorem State.putByte_log : (s.putByte a b).log = s.log := rfl
@[simp] theorem State.putByte_params : (s.putByte a b).params = s.params := rfl
@[simp] theorem State.putByte_memSize : (s.putByte a b).memSize = s.memSize := rfl
@[simp] theorem State.putByte_flag (f : Flag) : (s.putByte a b).flag f = s.flag f := rfl
@[simp] theorem State.putByte_reg (r : Reg) : (s.putByte a b).reg r = s.reg r := by cases r <;> rfl

end PutByte

section SetFlag
variable (s : State) (f : Flag) (v : Bool)

@[simp] theorem State.setFlag_regs : (s.setFlag f v).regs = s.regs := rfl
@[simp] theorem State.setFlag_mem : (s.setFlag f v).mem = s.mem := rfl
@[simp] theorem State.setFlag_log : (s.setFlag f v).log = s.log := rfl
@[simp] theorem State.setFlag_params : (s.setFlag f v).params = s.params := rfl
@[simp] theorem State.setFlag_memSize : (s.setFlag f v).memSize = s.memSize := rfl
@[simp] theorem State.setFlag_byteAt (a : Nat) : (s.setFlag f v).byteAt a = s.byteAt a := rfl
@[simp] theorem State.setFlag_reg (r : Reg) : (s.setFlag f v).reg r = s.reg r := by cases r <;> rfl

end SetFlag

section ClearCmpFlags
variable (s : State)

@[simp] theorem clearCmpFlags_regs : (clearCmpFlags s).regs = s.regs := rfl
@[simp] theorem clearCmpFlags_mem : (clearCmpFlags s).mem = s.mem := rfl
@[simp] theorem clearCmpFlags_log : (clearCmpFlags s).log = s.log := rfl
@[simp] theorem clearCmpFlags_params : (clearCmpFlags s).params = s.params := rfl
@[simp] theorem clearCmpFlags_memSize : (clearCmpFlags s).memSize = s.memSize := rfl
@[simp] theorem clearCmpFlags_byteAt (a : Nat) : (clearCmpFlags s).byteAt a = s.byteAt a := rfl
@[simp] theorem clearCmpFlags_reg (r : Reg) : (clearCmpFlags s).reg r = s.reg r := by cases r <;> rfl

end ClearCmpFlags

/-- Two states are equal when their registers by name and their other fields are. -/
theorem State.ext_reg {s t : State} (hr : ∀ r, t.reg r = s.reg r) (hf : t.flags = s.flags) (hm : t.mem = s.mem)
    (hl : t.log = s.log) (hp : t.params = s.params) : t = s := by
  have h0 := hr .x0
  have h1 := hr .x1
  have h2 := hr .x2
  have h3 := hr .x3
  have h4 := hr .sp
  have h5 := hr .bp
  have h6 := hr .pc
  obtain ⟨⟨_, _, _, _, _, _, _⟩, _, _, _, _⟩ := s
  obtain ⟨⟨_, _, _, _, _, _, _⟩, _, _, _, _⟩ := t
  simp_all [State.reg]

end Sys2Proof.Machine
end

