-- ==== Sys2Proof/Laws/Flags.lean ====
section
/-! SUPPORT. Reading a flag after writing one, and what clearing and setting the comparison flags do. -/

namespace Sys2Proof.Machine

/-- Reading a flag after writing one (10_state.md R36): the bits of two flags are apart. -/
theorem State.flag_setFlag (s : State) (f g : Flag) (v : Bool) :
    (s.setFlag g v).flag f = if f = g then v else s.flag f := by
  cases f <;> cases g <;> cases v <;>
    simp [State.flag, State.setFlag, flagMask, flagBit]

@[simp] theorem State.flag_setFlag_same (s : State) (f : Flag) (v : Bool) : (s.setFlag f v).flag f = v := by
  rw [State.flag_setFlag, if_pos rfl]

@[simp] theorem State.flag_setFlag_other (s : State) {f g : Flag} (v : Bool) (h : f ≠ g) :
    (s.setFlag g v).flag f = s.flag f := by
  rw [State.flag_setFlag, if_neg h]

/-- Writing a flag leaves bits 7:4 as they are (10_state.md R46). -/
@[simp] theorem State.setFlag_highBits (s : State) (g : Flag) (v : Bool) :
    (s.setFlag g v).flags.extractLsb' 4 4 = s.flags.extractLsb' 4 4 := by
  ext i hi
  have : i = 0 ∨ i = 1 ∨ i = 2 ∨ i = 3 := by omega
  cases g <;> cases v <;> rcases this with rfl | rfl | rfl | rfl <;>
    simp [State.setFlag, flagMask, flagBit]

@[simp] theorem clearCmpFlags_flag (s : State) (f : Flag) :
    (clearCmpFlags s).flag f = if f = .lessThan ∨ f = .greaterThan then false else s.flag f := by
  cases f <;> simp [clearCmpFlags]

@[simp] theorem clearCmpFlags_highBits (s : State) :
    (clearCmpFlags s).flags.extractLsb' 4 4 = s.flags.extractLsb' 4 4 := by
  simp [clearCmpFlags]

section SetCmpFlags
variable (s : State) (c : CmpResult)

@[simp] theorem setCmpFlags_regs : (setCmpFlags c s).regs = s.regs := by cases c <;> rfl
@[simp] theorem setCmpFlags_mem : (setCmpFlags c s).mem = s.mem := by cases c <;> rfl
@[simp] theorem setCmpFlags_log : (setCmpFlags c s).log = s.log := by cases c <;> rfl
@[simp] theorem setCmpFlags_params : (setCmpFlags c s).params = s.params := by cases c <;> rfl
@[simp] theorem setCmpFlags_memSize : (setCmpFlags c s).memSize = s.memSize := by cases c <;> rfl
@[simp] theorem setCmpFlags_byteAt (a : Nat) : (setCmpFlags c s).byteAt a = s.byteAt a := by cases c <;> rfl
@[simp] theorem setCmpFlags_reg (r : Reg) : (setCmpFlags c s).reg r = s.reg r := by cases c <;> cases r <;> rfl

@[simp] theorem setCmpFlags_highBits :
    (setCmpFlags c s).flags.extractLsb' 4 4 = s.flags.extractLsb' 4 4 := by
  cases c <;> simp [setCmpFlags]

/-- The flags of a comparison made after the clear (42_alu.md R173). -/
theorem setCmpFlags_clear_flag (f : Flag) :
    (setCmpFlags c (clearCmpFlags s)).flag f =
      match f with
      | .lessThan => decide (c = .neg)
      | .greaterThan => decide (c = .pos)
      | .halt | .stepDebug => s.flag f := by
  cases c <;> cases f <;> simp [setCmpFlags]

end SetCmpFlags

/-- The model's `toInt16` is the two's-complement reading (00_scope.md R11). -/
theorem toInt16_eq_toInt (v : Word) : toInt16 v = v.toInt := by
  rw [toInt16, BitVec.toInt_eq_msb_cond, BitVec.msb_eq_getLsbD_last]
  split <;> simp_all

end Sys2Proof.Machine
end

