-- ==== Sys2Proof/Laws/Memory.lean ====
section
/-! SUPPORT. Memory: a read after a write, and that every memory operation keeps the canonical form. -/

namespace Sys2Proof.Machine

/-- A list of cells whose addresses all exceed `k` reads as unlisted at `k`. -/
theorem cellsRead_of_lt {cells : List Host.Cell} {k : Nat} (h : ∀ c ∈ cells, k < c.1) :
    cellsRead cells k = unlistedByte := by
  induction cells with
  | nil => rfl
  | cons c rest ih =>
    obtain ⟨a, b⟩ := c
    have ha : k < a := h (a, b) (by simp)
    simp only [cellsRead, if_neg (Nat.ne_of_lt ha)]
    exact ih fun d hd => h d (by simp [hd])

/-- A read after a write, in a canonical list: the byte written at its address, the old byte elsewhere. -/
theorem cellsRead_cellsWrite {cells : List Host.Cell} (hs : cells.Pairwise fun c d => c.1 < d.1)
    (k : Nat) (v : Byte) (j : Nat) :
    cellsRead (cellsWrite cells k v) j = if j = k then v else cellsRead cells j := by
  induction cells with
  | nil =>
    by_cases hv : v = unlistedByte
    · simp [cellsWrite, cellsRead, hv]
    · simp [cellsWrite, cellsRead, hv]
  | cons c rest ih =>
    obtain ⟨a, b⟩ := c
    obtain ⟨hlt, hrest⟩ := List.pairwise_cons.1 hs
    have habove : ∀ i, i ≤ a → cellsRead rest i = unlistedByte := fun i hi =>
      cellsRead_of_lt fun d hd => Nat.lt_of_le_of_lt hi (hlt d hd)
    rcases Nat.lt_trichotomy k a with hka | rfl | hka
    · by_cases hv : v = unlistedByte
      · subst hv
        simp only [cellsWrite, if_pos hka, if_true]
        split
        · rename_i hj
          simp [cellsRead, hj, Nat.ne_of_lt hka, habove k (Nat.le_of_lt hka)]
        · rfl
      · simp only [cellsWrite, if_pos hka, if_neg hv, cellsRead]
    · by_cases hv : v = unlistedByte
      · simp only [cellsWrite, Nat.lt_irrefl, if_false, if_true, if_pos hv, cellsRead]
        split
        · rename_i hj
          rw [hj, habove k (Nat.le_refl k), hv]
        · rfl
      · simp only [cellsWrite, Nat.lt_irrefl, if_false, if_true, if_neg hv, cellsRead]
        split <;> rfl
    · have h1 : ¬ k < a := Nat.not_lt_of_lt hka
      have h2 : k ≠ a := Nat.ne_of_gt hka
      simp only [cellsWrite, if_neg h1, if_neg h2, cellsRead, ih hrest]
      split
      · rename_i hj
        rw [if_neg (by omega)]
      · rfl

/-- Whatever a write lists was listed before, or is the byte written where that is not the unlisted one. -/
theorem mem_cellsWrite {cells : List Host.Cell} {k : Nat} {v : Byte} {c : Host.Cell}
    (h : c ∈ cellsWrite cells k v) : c ∈ cells ∨ (c = (k, v) ∧ v ≠ unlistedByte) := by
  induction cells with
  | nil =>
    simp only [cellsWrite] at h
    split at h
    · simp at h
    · exact .inr ⟨by simpa using h, by assumption⟩
  | cons d rest ih =>
    obtain ⟨a, b⟩ := d
    simp only [cellsWrite] at h
    split at h
    · split at h
      · exact .inl h
      · rcases List.mem_cons.1 h with h | h
        · exact .inr ⟨h, by assumption⟩
        · exact .inl h
    · split at h
      · split at h
        · exact .inl (List.mem_cons_of_mem _ h)
        · rcases List.mem_cons.1 h with h | h
          · exact .inr ⟨h, by assumption⟩
          · exact .inl (List.mem_cons_of_mem _ h)
      · rcases List.mem_cons.1 h with h | h
        · exact .inl (by simp [h])
        · exact (ih h).imp_left (List.mem_cons_of_mem _)

/-- A write keeps the addresses strictly rising. -/
theorem cellsWrite_sorted {cells : List Host.Cell} (hs : cells.Pairwise fun c d => c.1 < d.1) (k : Nat) (v : Byte) :
    (cellsWrite cells k v).Pairwise fun c d => c.1 < d.1 := by
  induction cells with
  | nil =>
    simp only [cellsWrite]
    split <;> simp
  | cons d rest ih =>
    obtain ⟨a, b⟩ := d
    obtain ⟨hlt, hrest⟩ := List.pairwise_cons.1 hs
    simp only [cellsWrite]
    split
    · rename_i hka
      split
      · exact hs
      · refine List.pairwise_cons.2 ⟨fun c hc => ?_, hs⟩
        rcases List.mem_cons.1 hc with rfl | hc
        · exact hka
        · exact Nat.lt_trans hka (hlt c hc)
    · split
      · rename_i hka
        split
        · exact hrest
        · exact List.pairwise_cons.2 ⟨fun c hc => hka ▸ hlt c hc, hrest⟩
      · refine List.pairwise_cons.2 ⟨fun c hc => ?_, ih hrest⟩
        rcases mem_cellsWrite hc with hc | ⟨rfl, -⟩
        · exact hlt c hc
        · simp only; omega

/-- A store below N keeps memory canonical. -/
theorem State.putByte_wf {s : State} (h : s.mem.wf) {a : Nat} (ha : a < s.memSize) (b : Byte) :
    (s.putByte a b).mem.wf := by
  refine ⟨cellsWrite_sorted h.1 a b, fun c hc => ?_⟩
  rcases mem_cellsWrite hc with hc | ⟨rfl, hb⟩
  · exact h.2 c hc
  · exact ⟨ha, hb⟩

/-- A read after a store (20_memory.md R70). -/
theorem State.byteAt_putByte {s : State} (h : s.mem.wf) (a : Nat) (b : Byte) (j : Nat) :
    (s.putByte a b).byteAt j = if j < s.memSize then (if j = a then some b else s.byteAt j) else none := by
  have hr := cellsRead_cellsWrite h.1 a b j
  by_cases hj : j < s.memSize
  · by_cases ha : j = a <;> simp_all [State.byteAt]
  · simp [State.byteAt, hj]

/-- `MemWrite` answers a state exactly below N, and it is the store (20_memory.md R62). -/
theorem memWrite_ok {s t : State} {a : Nat} {b : Byte} :
    memWrite s a b = .ok t ↔ a < s.memSize ∧ t = s.putByte a b := by
  simp only [memWrite]
  split
  · simp_all [eq_comm]
  · simp_all

/-- `MemWrite` keeps memory canonical. -/
theorem memWrite_wf {s t : State} {a : Nat} {b : Byte} (h : s.mem.wf) (hw : memWrite s a b = .ok t) : t.mem.wf := by
  obtain ⟨ha, rfl⟩ := memWrite_ok.1 hw
  exact State.putByte_wf h ha b

/-- Loading bytes that fit keeps memory canonical (70_reset_and_hazards.md R261). -/
theorem loadBytes_wf (bs : List Byte) (a : Nat) (s : State) (h : s.mem.wf) (hfit : a + bs.length ≤ s.memSize) :
    (loadBytes bs a s).mem.wf := by
  induction bs generalizing a s with
  | nil => exact h
  | cons b bs ih =>
    simp only [List.length_cons] at hfit
    exact ih (a + 1) (s.putByte a b) (State.putByte_wf h (by omega) b) (by simp; omega)

/-- Placing an instruction for the next fetch keeps memory canonical. -/
theorem placeAtFetch_wf (bs : List Byte) (pc : Word) (s : State) (h : s.mem.wf) : (placeAtFetch bs pc s).mem.wf := by
  induction bs generalizing pc s with
  | nil => exact h
  | cons b bs ih =>
    simp only [placeAtFetch]
    split
    · rename_i ha
      exact ih _ _ (State.putByte_wf h ha b)
    · exact ih _ _ h

/-- Memory after creation is canonical. -/
theorem State.created_wf (l : Launch) : (State.created l).mem.wf := by
  simp [State.created, Memory.wf]

/-- Memory after reset is canonical. -/
theorem State.reset_wf : State.reset.mem.wf := State.created_wf defaultLaunch

end Sys2Proof.Machine
end

