-- ==== Sys2Proof/Laws/Ops.lean ====
section
/-! SUPPORT. What fetching, pushing, popping and resolving an operand can do, said once each. -/

namespace Sys2Proof.Machine

theorem memRead_ok {k : AccessKind} {s : State} {a : Nat} {b : Byte} :
    memRead k s a = .ok b ↔ s.byteAt a = some b := by
  cases h : s.byteAt a <;> simp [memRead, h]

theorem memRead_error {k : AccessKind} {s : State} {a : Nat} {f : Fault} :
    memRead k s a = .error f ↔ s.byteAt a = none ∧ f = .memFault a k s.log := by
  cases h : s.byteAt a <;> simp [memRead, h, eq_comm]

/-- A byte exists exactly below N (10_state.md R40). -/
theorem State.byteAt_eq_none {s : State} {a : Nat} : s.byteAt a = none ↔ s.memSize ≤ a := by
  simp [State.byteAt]

theorem State.byteAt_eq_some {s : State} {a : Nat} {b : Byte} (h : s.byteAt a = some b) : a < s.memSize := by
  by_contra hn
  simp [State.byteAt_eq_none.2 (Nat.le_of_not_lt hn)] at h

/-- A fetch that succeeds reads at `bp +nat pc` and advances pc by one (40_fetch_decode.md R110). -/
theorem fetchByte_ok {s t : State} {b : Byte} :
    fetchByte s = .ok (b, t) ↔ s.byteAt (fetchAddr s) = some b ∧ t = s.setReg .pc (s.reg .pc + 1) := by
  simp only [fetchByte]
  split
  · rename_i f h
    simp [(memRead_error.1 h).1]
  · rename_i c h
    simp [memRead_ok.1 h, eq_comm]

/-- A fetch that fails names the fetch address (20_memory.md R62). -/
theorem fetchByte_error {s : State} {f : Fault} :
    fetchByte s = .error f ↔ s.byteAt (fetchAddr s) = none ∧ f = .memFault (fetchAddr s) .fetch s.log := by
  simp only [fetchByte]
  split
  · rename_i g h
    obtain ⟨h1, rfl⟩ := memRead_error.1 h
    simp [h1, eq_comm]
  · rename_i c h
    simp [memRead_ok.1 h]

/-- Writing pc twice keeps the second value. -/
theorem State.setReg_setReg_same (s : State) (r : Reg) (v w : Word) : (s.setReg r v).setReg r w = s.setReg r w := by
  cases r <;> rfl

/-- Writing back the value a register holds changes nothing. -/
theorem State.setReg_reg_self (s : State) (r : Reg) : s.setReg r (s.reg r) = s := by
  cases r <;> rfl

/-- One increment and then k are k + 1 increments. -/
theorem word_add_one_add (v : Word) (k : Nat) : v + 1 + BitVec.ofNat 16 k = v + BitVec.ofNat 16 (k + 1) := by
  rw [Nat.add_comm k 1, BitVec.ofNat_add, BitVec.add_assoc]
  rfl

/-- `n` fetches that succeed read at `bp +nat (pc + k)` for k below n, and advance pc by n. -/
theorem fetchBytes_ok {n : Nat} {s t : State} {bs : List Byte} (h : fetchBytes n s = .ok (bs, t)) :
    bs.length = n ∧ t = s.setReg .pc (s.reg .pc + BitVec.ofNat 16 n) ∧
      ∀ k (hk : k < bs.length),
        s.byteAt ((s.reg .bp).toNat + (s.reg .pc + BitVec.ofNat 16 k).toNat) = some bs[k] := by
  induction n generalizing s bs with
  | zero =>
    simp only [fetchBytes, Except.ok.injEq, Prod.mk.injEq] at h
    obtain ⟨rfl, rfl⟩ := h
    simp [State.setReg_reg_self]
  | succ n ih =>
    simp only [fetchBytes] at h
    split at h
    · cases h
    · rename_i b s1 h1
      split at h
      · cases h
      · rename_i bs' s2 h2
        simp only [Except.ok.injEq, Prod.mk.injEq] at h
        obtain ⟨rfl, rfl⟩ := h
        obtain ⟨hb, rfl⟩ := fetchByte_ok.1 h1
        obtain ⟨hl, ht, hbytes⟩ := ih h2
        refine ⟨by simp [hl], ?_, fun k hk => ?_⟩
        · rw [ht, State.setReg_setReg_same, State.reg_setReg_same, word_add_one_add]
        · cases k with
          | zero => simpa [fetchAddr] using hb
          | succ k =>
            have := hbytes k (by simpa using hk)
            rwa [State.setReg_byteAt, State.reg_setReg_same, word_add_one_add, State.reg_setReg_other _ _ _ (by decide)] at this

/-- A fetch that faults names an address of N or above and carries the log unchanged: fetching emits no event. -/
theorem fetchBytes_error {n : Nat} {s : State} {f : Fault} (h : fetchBytes n s = .error f) :
    ∃ a, f = .memFault a .fetch s.log ∧ s.memSize ≤ a := by
  induction n generalizing s with
  | zero => cases h
  | succ n ih =>
    simp only [fetchBytes] at h
    split at h
    · rename_i g h1
      cases h
      obtain ⟨hb, hf⟩ := fetchByte_error.1 h1
      exact ⟨_, hf, State.byteAt_eq_none.1 hb⟩
    · rename_i b s1 h1
      obtain ⟨-, rfl⟩ := fetchByte_ok.1 h1
      split at h
      · rename_i g h2
        cases h
        simpa using ih h2
      · cases h

/-- When the bytes are there, `fetchBytes` answers them (the converse of `fetchBytes_ok`). -/
theorem fetchBytes_of_bytes {s : State} (bs : List Byte)
    (h : ∀ k (hk : k < bs.length),
      s.byteAt ((s.reg .bp).toNat + (s.reg .pc + BitVec.ofNat 16 k).toNat) = some bs[k]) :
    fetchBytes bs.length s = .ok (bs, s.setReg .pc (s.reg .pc + BitVec.ofNat 16 bs.length)) := by
  induction bs generalizing s with
  | nil => simp [fetchBytes, State.setReg_reg_self]
  | cons b bs ih =>
    have h0 : fetchByte s = .ok (b, s.setReg .pc (s.reg .pc + 1)) :=
      fetchByte_ok.2 ⟨by have := h 0 (by simp); simpa [fetchAddr] using this, rfl⟩
    have hrest := ih (s := s.setReg .pc (s.reg .pc + 1)) fun k hk => by
      have := h (k + 1) (by simpa using hk)
      rwa [State.setReg_byteAt, State.reg_setReg_same, word_add_one_add, State.reg_setReg_other _ _ _ (by decide)]
    simp only [List.length_cons, fetchBytes, h0, hrest, State.setReg_setReg_same, State.reg_setReg_same,
      word_add_one_add]

/-- A register write and a store do not disturb each other. -/
theorem State.putByte_setReg (s : State) (r : Reg) (v : Word) (a : Nat) (b : Byte) :
    (s.setReg r v).putByte a b = (s.putByte a b).setReg r v := by
  cases r <;> rfl

/-- The state after a push that succeeds: high byte at sp, low byte at sp + 1, sp + 2 (41_stack.md R140). -/
theorem push16_ok {v : Word} {s t : State} :
    push16 v s = .ok t ↔
      (s.reg .sp).toNat < s.memSize ∧ (s.reg .sp + 1).toNat < s.memSize ∧
        t = ((s.putByte (s.reg .sp).toNat (hiByte v)).putByte (s.reg .sp + 1).toNat (loByte v)).setReg .sp
              (s.reg .sp + 1 + 1) := by
  by_cases h1 : (s.reg .sp).toNat < s.memSize
  · by_cases h2 : (s.reg .sp + 1).toNat < s.memSize
    · simp only [push16, memWrite, h1, h2, if_true, State.putByte_reg, State.reg_setReg_same, State.setReg_memSize,
        State.putByte_memSize, State.putByte_setReg, State.setReg_setReg_same, true_and, Except.ok.injEq]
      exact eq_comm
    · simp only [push16, memWrite, h1, h2, if_true, if_false, State.putByte_reg, State.reg_setReg_same,
        State.setReg_memSize, State.putByte_memSize, false_and, and_false, reduceCtorEq]
  · simp [push16, memWrite, h1]

/-- A push faults exactly when a stack address is N or above, and names the first such (20_memory.md R62). -/
theorem push16_error {v : Word} {s : State} {f : Fault} :
    push16 v s = .error f ↔
      (s.memSize ≤ (s.reg .sp).toNat ∧ f = .memFault (s.reg .sp).toNat .write s.log) ∨
        ((s.reg .sp).toNat < s.memSize ∧ s.memSize ≤ (s.reg .sp + 1).toNat ∧
          f = .memFault (s.reg .sp + 1).toNat .write s.log) := by
  by_cases h1 : (s.reg .sp).toNat < s.memSize
  · by_cases h2 : (s.reg .sp + 1).toNat < s.memSize
    · simp only [push16, memWrite, h1, h2, Nat.not_le.2 h1, Nat.not_le.2 h2, if_true, State.putByte_reg,
        State.reg_setReg_same, State.setReg_memSize, State.putByte_memSize, false_and, and_false, or_self, reduceCtorEq]
    · simp only [push16, memWrite, h1, h2, Nat.not_le.2 h1, Nat.le_of_not_lt h2, if_true, if_false, State.putByte_reg,
        State.reg_setReg_same, State.setReg_memSize, State.putByte_memSize, State.setReg_log, State.putByte_log, false_and, true_and, false_or,
        Except.error.injEq]
      exact eq_comm
  · simp only [push16, memWrite, h1, Nat.le_of_not_lt h1, if_false, false_and, true_and, or_false, Except.error.injEq]
    exact eq_comm

/-- The result of a pop that succeeds: low byte at sp - 1, high byte at sp - 2, sp - 2 (41_stack.md R141). -/
theorem pop16_ok {v : Word} {s t : State} :
    pop16 s = .ok (v, t) ↔
      ∃ lo hi, s.byteAt (s.reg .sp - 1).toNat = some lo ∧ s.byteAt (s.reg .sp - 1 - 1).toNat = some hi ∧
        v = wordOfBytes hi lo ∧ t = s.setReg .sp (s.reg .sp - 1 - 1) := by
  cases hlo : s.byteAt (s.reg .sp - 1).toNat with
  | none => simp only [pop16, memRead, State.reg_setReg_same, State.setReg_byteAt, hlo, reduceCtorEq, false_and, exists_false]
  | some lo =>
    cases hhi : s.byteAt (s.reg .sp - 1 - 1).toNat with
    | none =>
      simp only [pop16, memRead, State.reg_setReg_same, State.setReg_byteAt, hlo, hhi, reduceCtorEq, false_and, and_false,
        exists_false]
    | some hi =>
      simp only [pop16, memRead, State.reg_setReg_same, State.setReg_byteAt, State.setReg_setReg_same, hlo, hhi,
        Except.ok.injEq, Prod.mk.injEq, Option.some.injEq, eq_comm (a := v), eq_comm (a := t)]
      exact ⟨fun ⟨h1, h2⟩ => ⟨lo, hi, rfl, rfl, h1, h2⟩, fun ⟨_, _, h1, h2, h3, h4⟩ => by subst h1 h2; exact ⟨h3, h4⟩⟩

/-- A pop faults exactly when a stack address is N or above, and names the first such (20_memory.md R62). -/
theorem pop16_error {s : State} {f : Fault} :
    pop16 s = .error f ↔
      (s.memSize ≤ (s.reg .sp - 1).toNat ∧ f = .memFault (s.reg .sp - 1).toNat .read s.log) ∨
        ((s.reg .sp - 1).toNat < s.memSize ∧ s.memSize ≤ (s.reg .sp - 1 - 1).toNat ∧
          f = .memFault (s.reg .sp - 1 - 1).toNat .read s.log) := by
  cases hlo : s.byteAt (s.reg .sp - 1).toNat with
  | none =>
    have h1 := State.byteAt_eq_none.1 hlo
    simp only [pop16, memRead, State.reg_setReg_same, State.setReg_byteAt, State.setReg_log, hlo, h1, Nat.not_lt.2 h1,
      true_and, false_and, or_false, Except.error.injEq]
    exact eq_comm
  | some lo =>
    have h1 := State.byteAt_eq_some hlo
    cases hhi : s.byteAt (s.reg .sp - 1 - 1).toNat with
    | none =>
      have h2 := State.byteAt_eq_none.1 hhi
      simp only [pop16, memRead, State.reg_setReg_same, State.setReg_byteAt, State.setReg_log, hlo, hhi, h1, h2,
        Nat.not_le.2 h1, true_and, false_and, false_or, Except.error.injEq]
      exact eq_comm
    | some hi =>
      have h2 := State.byteAt_eq_some hhi
      simp only [pop16, memRead, State.reg_setReg_same, State.setReg_byteAt, hlo, hhi, h1, Nat.not_le.2 h1,
        Nat.not_le.2 h2, false_and, and_false, or_self, reduceCtorEq]

/-- What the tail of a register-operand instruction can answer (40_fetch_decode.md R114, R115). -/
theorem withRegOperand_next {h r : Nibble} {s t : State} {act : Reg → State} :
    withRegOperand h r s act = .next t ↔
      (regOperand s.params h r = .ok none ∧ t = reportInvalidRegister r s) ∨
        ∃ x, regOperand s.params h r = .ok (some x) ∧ t = act x := by
  rcases hr : regOperand s.params h r with e | (_ | x) <;> simp [withRegOperand, hr, eq_comm]

theorem withRegOperand_not_fault {h r : Nibble} {s : State} {act : Reg → State} {f : Fault} :
    withRegOperand h r s act ≠ .fault f := by
  simp only [withRegOperand]
  split <;> simp

end Sys2Proof.Machine
end

