-- ==== Sys2Proof/Laws/Exec.lean ====
section
/-! SUPPORT. The inversion lemmas: everything an instruction's meaning, one `step()` and one turn of the run loop can do
when they answer a next state. An invariant is proved from these, not by unfolding. -/

namespace Sys2Proof.Machine

/-- The ways an instruction's meaning changes the state. -/
inductive Effect (s t : State) : Prop where
  /-- Nothing: NOP, SYS with an undefined sub-op, a branch not taken. -/
  | same (h : t = s)
  /-- One event: a report, or a character. -/
  | event (e : Event) (h : t = s.emit e)
  /-- One register: ADDI, ANDI, ORI. -/
  | register (r : Reg) (v : Word) (h : t = s.setReg r v)
  /-- A push: PUSH, PUSHI. -/
  | pushed (v : Word) (h : push16 v s = .ok t)
  /-- A pop into a register: POP. -/
  | popped (r : Reg) (v : Word) (u : State) (hp : pop16 s = .ok (v, u)) (h : t = u.setReg r v)
  /-- A pop whose register operand is none: POP. -/
  | poppedNone (idx : Nibble) (v : Word) (u : State) (hp : pop16 s = .ok (v, u)) (h : t = reportInvalidRegister idx u)
  /-- A comparison: CMP, CMPI. -/
  | compared (c : CmpResult) (h : t = setCmpFlags c (clearCmpFlags s))
  /-- A comparison whose operand is none: CMP, CMPI. -/
  | comparedNone (idx : Nibble) (h : t = reportInvalidRegister idx (clearCmpFlags s))
  /-- A taken branch. -/
  | jumped (w : Word) (h : t = clearCmpFlags (s.setReg .pc w))
  /-- SYS 0x00. -/
  | halted (h : t = s.setFlag .halt true)
  /-- SYS 0x02. -/
  | toggled (h : t = s.setFlag .stepDebug (!s.flag .stepDebug))

theorem pushOutcome_next {v : Word} {s t : State} : pushOutcome v s = .next t ↔ push16 v s = .ok t := by
  rcases h : push16 v s with f | u <;> simp [pushOutcome, h]

theorem branchTo_effect {b : Bool} {w : Word} {s t : State} (h : branchTo b w s = .next t) : Effect s t := by
  cases b
  · exact .same (by simpa [branchTo, eq_comm] using h)
  · exact .jumped w (by simpa [branchTo, eq_comm] using h)

theorem execPop_next {h r : Nibble} {s t : State} (hx : execPop h r s = .next t) :
    ∃ v u, pop16 s = .ok (v, u) ∧ ((regOperand u.params h r = .ok none ∧ t = reportInvalidRegister r u) ∨
      ∃ x, regOperand u.params h r = .ok (some x) ∧ t = u.setReg x v) := by
  rcases hp : pop16 s with f | ⟨v, u⟩
  · simp [execPop, hp] at hx
  · simp only [execPop, hp] at hx
    exact ⟨v, u, rfl, withRegOperand_next.1 hx⟩

/-- What an instruction that answers a next state can have done. -/
theorem exec_effect {i : Instr} {s t : State} (h : exec i s = .next t) : Effect s t := by
  cases i with
  | nop => exact .same (by simpa [exec, execNop, eq_comm] using h)
  | sys n =>
    simp only [exec, execSys] at h
    split at h
    · exact .halted (by simpa [eq_comm] using h)
    · split at h
      · exact .event _ (by simpa [eq_comm] using h)
      · split at h
        · exact .toggled (by simpa [eq_comm] using h)
        · exact .same (by simpa [eq_comm] using h)
  | push hi r =>
    simp only [exec, execPush] at h
    split at h
    · exact .event _ (by simpa [reportInvalidRegister, eq_comm] using h)
    · exact .pushed _ (pushOutcome_next.1 h)
  | pushi imm => exact .pushed _ (pushOutcome_next.1 h)
  | pop hi r =>
    obtain ⟨v, u, hp, ⟨-, ht⟩ | ⟨x, -, ht⟩⟩ := execPop_next h
    · exact .poppedNone r v u hp ht
    · exact .popped x v u hp ht
  | add => exact .event _ (by simpa [exec, execAdd, reportUnknownOpcode, eq_comm] using h)
  | addi imm hi r | andi imm hi r | ori imm hi r =>
    rcases withRegOperand_next.1 h with ⟨-, ht⟩ | ⟨x, -, ht⟩
    · exact .event _ ht
    · exact .register x _ ht
  | branch w | branchLessThan w | branchGreaterThan w | branchEqualTo w | branchNotEqualTo w =>
    exact branchTo_effect h
  | cmp a b =>
    simp only [exec, execCmp] at h
    split at h
    · exact .comparedNone _ (by simpa [eq_comm] using h)
    · exact .comparedNone _ (by simpa [eq_comm] using h)
    · exact .compared _ (by simpa [eq_comm] using h)
  | cmpi imm hi r =>
    rcases withRegOperand_next.1 h with ⟨-, ht⟩ | ⟨x, -, ht⟩
    · exact .comparedNone _ ht
    · exact .compared _ ht

/-- The MemFault of an instruction names an address of N or above and carries the log unchanged: no meaning emits an
event before its memory accesses (60_exceptions.md R237). -/
theorem exec_fault {i : Instr} {s : State} {f : Fault} (h : exec i s = .fault f) :
    ∃ a k, f = .memFault a k s.log ∧ s.memSize ≤ a := by
  have push : ∀ v, pushOutcome v s = .fault f → ∃ a k, f = .memFault a k s.log ∧ s.memSize ≤ a := by
    intro v hv
    rcases hp : push16 v s with g | u <;> simp only [pushOutcome, hp, Host.Outcome.fault.injEq, reduceCtorEq] at hv
    subst hv
    rcases push16_error.1 hp with ⟨h1, h2⟩ | ⟨-, h1, h2⟩ <;> exact ⟨_, _, h2, h1⟩
  cases i with
  | push hi r =>
    simp only [exec, execPush] at h
    split at h
    · cases h
    · exact push _ h
  | pushi imm => exact push _ h
  | pop hi r =>
    rcases hp : pop16 s with g | ⟨v, u⟩ <;> simp only [exec, execPop, hp, Host.Outcome.fault.injEq] at h
    · subst h
      rcases pop16_error.1 hp with ⟨h1, h2⟩ | ⟨-, h1, h2⟩ <;> exact ⟨_, _, h2, h1⟩
    · exact absurd h withRegOperand_not_fault
  | addi imm hi r | andi imm hi r | ori imm hi r | cmpi imm hi r => exact absurd h withRegOperand_not_fault
  | sys n => simp only [exec, execSys] at h; split at h <;> [cases h; split at h <;> [cases h; split at h <;> cases h]]
  | cmp a b => simp only [exec, execCmp] at h; split at h <;> cases h
  | branch w | branchLessThan w | branchGreaterThan w | branchEqualTo w | branchNotEqualTo w =>
    simp only [exec, execBranch, execBranchLessThan, execBranchGreaterThan, execBranchEqualTo, execBranchNotEqualTo,
      branchTo] at h
    split at h <;> cases h
  | nop | add => cases h

/-- What one `step()` that answers a next state can have done (40_fetch_decode.md R116). -/
theorem stepInstr_next {s t : State} (h : stepInstr s = .next t) :
    ∃ op s1, fetchByte (traceStep s) = .ok (op, s1) ∧
      ((decodeOpcode s1.params.opcodeMap op = none ∧ t = reportUnknownOpcode op s1) ∨
        ∃ k bs s2, decodeOpcode s1.params.opcodeMap op = some k ∧ fetchBytes (operandLength k) s1 = .ok (bs, s2) ∧
          exec (decodeOperands k bs) s2 = .next t) := by
  rcases hf : fetchByte (traceStep s) with f | ⟨op, s1⟩
  · simp [stepInstr, hf] at h
  · refine ⟨op, s1, rfl, ?_⟩
    rcases hd : decodeOpcode s1.params.opcodeMap op with _ | k
    · exact .inl ⟨rfl, by simpa [stepInstr, hf, hd, eq_comm] using h⟩
    · rcases hb : fetchBytes (operandLength k) s1 with f | ⟨bs, s2⟩
      · simp [stepInstr, hf, hd, hb] at h
      · exact .inr ⟨k, bs, s2, rfl, hb, by simpa [stepInstr, hf, hd, hb] using h⟩

/-- A turn of the run loop that answers a next state passed the loop test and is one `step()` (R120). -/
theorem step_next {s t : State} (h : step s = .next t) : loopTest s = none ∧ stepInstr s = .next t := by
  rcases hl : loopTest s with _ | f
  · exact ⟨rfl, by simpa [step, hl] using h⟩
  · simp [step, hl] at h

/-- The trace changes the log alone. -/
theorem traceStep_cases (s : State) :
    (s.flags = stepDebugOnly ∧ traceStep s = s.emit (.trace s.regs s.flags)) ∨
      (s.flags ≠ stepDebugOnly ∧ traceStep s = s) := by
  by_cases h : s.flags = stepDebugOnly <;> simp [traceStep, h]

section TraceStep
variable (s : State)

@[simp] theorem traceStep_flags : (traceStep s).flags = s.flags := by
  rcases traceStep_cases s with ⟨-, h⟩ | ⟨-, h⟩ <;> simp [h]

@[simp] theorem traceStep_mem : (traceStep s).mem = s.mem := by
  rcases traceStep_cases s with ⟨-, h⟩ | ⟨-, h⟩ <;> simp [h]

@[simp] theorem traceStep_params : (traceStep s).params = s.params := by
  rcases traceStep_cases s with ⟨-, h⟩ | ⟨-, h⟩ <;> simp [h]

@[simp] theorem traceStep_memSize : (traceStep s).memSize = s.memSize := by
  rcases traceStep_cases s with ⟨-, h⟩ | ⟨-, h⟩ <;> simp [h]

@[simp] theorem traceStep_byteAt (a : Nat) : (traceStep s).byteAt a = s.byteAt a := by
  rcases traceStep_cases s with ⟨-, h⟩ | ⟨-, h⟩ <;> simp [h]

@[simp] theorem traceStep_flag (f : Flag) : (traceStep s).flag f = s.flag f := by
  rcases traceStep_cases s with ⟨-, h⟩ | ⟨-, h⟩ <;> simp [h]

@[simp] theorem traceStep_reg (r : Reg) : (traceStep s).reg r = s.reg r := by
  rcases traceStep_cases s with ⟨-, h⟩ | ⟨-, h⟩ <;> simp [h]

@[simp] theorem traceStep_fetchAddr : fetchAddr (traceStep s) = fetchAddr s := by simp [fetchAddr]

end TraceStep

end Sys2Proof.Machine
end

