-- ==== Sys2Proof/Laws/HostControl.lean ====
section
/-! SUPPORT. What the moves of a session can do: a load, and the machine a MemFault leaves. -/

namespace Sys2Proof.Machine

/-- A load either copies an image that fits or refuses one that does not (70_reset_and_hazards.md R261, R264). -/
theorem loadMove_cases (addr : Nat) (image : List Byte) (c : Session) :
    (addr + image.length ≤ c.machine.memSize ∧
      loadMove addr image c = .next { c with phase := .loaded, machine := loadBytes image addr c.machine }) ∨
    (c.machine.memSize < addr + image.length ∧ loadMove addr image c = .refused .launchImageTooLarge) := by
  rcases Nat.lt_or_ge c.machine.memSize (addr + image.length) with h | h
  · exact .inr ⟨h, by simp [loadMove, loadImage, Nat.not_le.2 h]⟩
  · exact .inl ⟨h, by simp [loadMove, loadImage, h]⟩

/-- Loading changes bytes of memory alone (70_reset_and_hazards.md R261). -/
theorem loadBytes_frame (bs : List Byte) (a : Nat) (s : State) :
    (loadBytes bs a s).regs = s.regs ∧ (loadBytes bs a s).flags = s.flags ∧ (loadBytes bs a s).memSize = s.memSize ∧
      (loadBytes bs a s).log = s.log ∧ (loadBytes bs a s).params = s.params := by
  induction bs generalizing a s with
  | nil => exact ⟨rfl, rfl, rfl, rfl, rfl⟩
  | cons b bs ih => simpa [loadBytes] using ih (a + 1) (s.putByte a b)

section FaultedMachine
variable (seed : Nat) (log : List Event) (s : State)

@[simp] theorem faultedMachine_log : (faultedMachine seed log s).log = log := (loadBytes_frame ..).2.2.2.1
@[simp] theorem faultedMachine_params : (faultedMachine seed log s).params = s.params := (loadBytes_frame ..).2.2.2.2
@[simp] theorem faultedMachine_memSize : (faultedMachine seed log s).memSize = s.memSize := (loadBytes_frame ..).2.2.1
@[simp] theorem faultedMachine_flags : (faultedMachine seed log s).flags = Config.faultFlags seed :=
  (loadBytes_frame ..).2.1

/-- The free bytes stand in memory's canonical form. -/
theorem faultedMachine_wf : (faultedMachine seed log s).mem.wf :=
  loadBytes_wf _ _ _ ⟨List.Pairwise.nil, by simp⟩ (by simp [State.memSize])

end FaultedMachine

end Sys2Proof.Machine
end

