-- ==== Sys2Proof/Laws/PerInstr.lean ====
section
/-! SUPPORT. Statements made per instruction: the encoder writes as many bytes as the length table says
(30_encoding.md R81, R85). -/

namespace Sys2Proof.Laws.EncodedLength

/-- The encoded instruction has the length of its mnemonic, under every opcode map. -/
def Statement (i : Instr) : Prop := ∀ m : OpcodeMap, (encode m i).length = instrLength i.mnemonic

theorem nop : Statement .nop := fun _ => rfl
theorem sys (n : Byte) : Statement (.sys n) := fun _ => rfl
theorem push (h r : Nibble) : Statement (.push h r) := fun _ => rfl
theorem pushi (imm : Word) : Statement (.pushi imm) := fun _ => rfl
theorem pop (h r : Nibble) : Statement (.pop h r) := fun _ => rfl
theorem add : Statement .add := fun _ => rfl
theorem addi (imm : Word) (h r : Nibble) : Statement (.addi imm h r) := fun _ => rfl
theorem branch (t : Word) : Statement (.branch t) := fun _ => rfl
theorem branchLessThan (t : Word) : Statement (.branchLessThan t) := fun _ => rfl
theorem branchGreaterThan (t : Word) : Statement (.branchGreaterThan t) := fun _ => rfl
theorem branchEqualTo (t : Word) : Statement (.branchEqualTo t) := fun _ => rfl
theorem branchNotEqualTo (t : Word) : Statement (.branchNotEqualTo t) := fun _ => rfl
theorem cmp (s d : Nibble) : Statement (.cmp s d) := fun _ => rfl
theorem cmpi (imm : Word) (h r : Nibble) : Statement (.cmpi imm h r) := fun _ => rfl
theorem andi (imm : Word) (h r : Nibble) : Statement (.andi imm h r) := fun _ => rfl
theorem ori (imm : Word) (h r : Nibble) : Statement (.ori imm h r) := fun _ => rfl

end Sys2Proof.Laws.EncodedLength
end

