-- ==== Sys2Proof/Tests/Slice0.lean ====
section
/-! SUPPORT. The model's own tests: the checks of WellFormed, one written-out word for each constructor, the spec's
vectors (95_test_vectors.md) one step at a time, and for each statement with hypotheses a state that meets them. -/

namespace Sys2Proof.Tests
open Sys2Proof.Machine

/-! ### WellFormed: a term each check refuses, and one it accepts -/

/-- A map in which PUSH and PUSHI share the byte 0x10. -/
def clashingMap : OpcodeMap := { defaultOpcodeMap with pushi := 0x0#4 }

theorem test_wf_map : clashingMap.wf = false ∧ defaultOpcodeMap.wf = true := by decide
theorem test_wf_instr :
    Instr.wf clashingMap (.pushi 5#16) = false ∧ Instr.wf defaultOpcodeMap (.pushi 5#16) = true := by decide

/-- VF1 and VF2: seven bytes at 10 do not fit in 16, at 9 they do. -/
theorem test_wf_launch :
    Launch.wf { defaultLaunch with memSize := 16, loadAddr := 10, image := List.replicate 7 1 } = false ∧
    Launch.wf { defaultLaunch with memSize := 16, loadAddr := 9, image := List.replicate 7 1 } = true := by decide

/-! ### Decoding: for each constructor a word written out from 30_encoding.md R81 and R86 -/

/-- The instruction that decodes from exactly these bytes under the default map. -/
def decoded (bs : List Byte) : Option Instr :=
  match decode defaultOpcodeMap bs with
  | .ok (i, []) => some i
  | _ => none

theorem test_decode_nop : decoded [0b00000000#8] = some .nop := by decide
theorem test_decode_sys : decoded [0b00000100#8, 0b00000010#8] = some (.sys 2#8) := by decide
theorem test_decode_push : decoded [0b00010000#8, 0b00110010#8] = some (.push 3#4 2#4) := by decide
theorem test_decode_pushi : decoded [0b00010001#8, 0b00000000#8, 0b01000001#8] = some (.pushi 0x0041#16) := by decide
theorem test_decode_pop : decoded [0b00100000#8, 0b00000101#8] = some (.pop 0#4 5#4) := by decide
theorem test_decode_add : decoded [0b00110000#8] = some .add := by decide
theorem test_decode_addi :
    decoded [0b00110001#8, 0b11111111#8, 0b11111100#8, 0b00000111#8] = some (.addi 0xFFFC#16 0#4 7#4) := by decide
theorem test_decode_branch : decoded [0b01010000#8, 0b00000000#8, 0b00000100#8] = some (.branch 4#16) := by decide
theorem test_decode_branchLessThan :
    decoded [0b01010001#8, 0b00000000#8, 0b00100000#8] = some (.branchLessThan 0x20#16) := by decide
theorem test_decode_branchGreaterThan :
    decoded [0b01010010#8, 0b00000001#8, 0b00000000#8] = some (.branchGreaterThan 0x100#16) := by decide
theorem test_decode_branchEqualTo :
    decoded [0b01010011#8, 0b00010010#8, 0b00110100#8] = some (.branchEqualTo 0x1234#16) := by decide
theorem test_decode_branchNotEqualTo :
    decoded [0b01010100#8, 0b00000000#8, 0b00000100#8] = some (.branchNotEqualTo 4#16) := by decide
theorem test_decode_cmp : decoded [0b01100000#8, 0b00010010#8] = some (.cmp 1#4 2#4) := by decide
theorem test_decode_cmpi :
    decoded [0b01100001#8, 0b00000000#8, 0b00000101#8, 0b00000001#8] = some (.cmpi 5#16 0#4 1#4) := by decide
theorem test_decode_andi :
    decoded [0b01110001#8, 0b00001111#8, 0b11110000#8, 0b00000011#8] = some (.andi 0x0FF0#16 0#4 3#4) := by decide
theorem test_decode_ori :
    decoded [0b10000001#8, 0b00001111#8, 0b00001111#8, 0b00000100#8] = some (.ori 0x0F0F#16 0#4 4#4) := by decide

/-- VA8: bytes that look like a family but are in no entry; a cut-off instruction. -/
theorem test_decode_rejects :
    [0x40#8, 0x05#8, 0x55#8, 0x62#8, 0x90#8, 0xFF#8].all (fun op => (decodeOpcode defaultOpcodeMap op).isNone) ∧
    decoded [0x31#8, 0x00#8, 0x01#8] = none := by decide

/-- 241 unknown bytes, the reserved ADD among them (30_encoding.md R88). -/
theorem test_unknown_count :
    ((List.range 256).filter fun n =>
      match decodeOpcode defaultOpcodeMap (BitVec.ofNat 8 n) with
      | none | some .add => true
      | some _ => false).length = 241 := by decide +kernel

theorem test_decodeTableWord :
    decodeTableWord 8 0x10 = some (.push 0#4 0#4) ∧ decodeTableWord 32 0x07FCFF31 = some (.addi 0xFFFC#16 0#4 7#4) ∧
    decodeTableWord 8 0x40 = none := by decide

/-! ### One step on a small state -/

/-- A machine of `n` bytes with `code` at 0, everything else as after creation. -/
def st (n : Fin 65537) (code : List Byte) : State :=
  loadBytes code 0 (State.created { defaultLaunch with memSize := n })

/-- The same with a flag byte. -/
def stF (n : Fin 65537) (code : List Byte) (f : Byte) : State := { st n code with flags := f }

/-- The same with other parameters. -/
def stP (n : Fin 65537) (code : List Byte) (h : RegByteHighNibble) (c : CmpMode) : State :=
  { st n code with params := { defaultParams with regByteHighNibble := h, cmpMode := c } }

/-- The next state, if there is one. -/
def nextOf (o : Host.Outcome State Fault Refusal) : Option State :=
  match o with
  | .next t => some t
  | .fault _ | .refused _ => none

/-- The fault, if there is one. -/
def faultOf (o : Host.Outcome State Fault Refusal) : Option Fault :=
  match o with
  | .fault f => some f
  | .next _ | .refused _ => none

/-- The refusal, if there is one. -/
def refusalOf (o : Host.Outcome State Fault Refusal) : Option Refusal :=
  match o with
  | .refused r => some r
  | .next _ | .fault _ => none

/-- Something read off the state after one step. -/
def view {α : Type} (s : State) (f : State → α) : Option α := (nextOf (step s)).map f

/-- The flag byte and pc. -/
def fp (t : State) : Byte × Word := (t.flags, t.reg .pc)

/-- sp and the two bytes below it. -/
def top (t : State) : Word × Option Byte × Option Byte :=
  (t.reg .sp, t.byteAt ((t.reg .sp).toNat - 2), t.byteAt ((t.reg .sp).toNat - 1))

/-- VA1, VA2 (wrap of pc). -/
theorem test_nop :
    view ((st 64 []).setReg .pc 5) fp = some (0x00#8, 6#16) ∧
    view ((st 65536 []).setReg .pc 0xFFFF) fp = some (0x00#8, 0#16) := by decide

/-- VS1, VS7 and VS3. -/
theorem test_sys_flags :
    view (stF 16 [0x04#8, 0x00#8] 0x02#8) fp = some (0x03#8, 2#16) ∧
    view (stF 16 [0x04#8, 0x02#8] 0x04#8) fp = some (0x06#8, 2#16) ∧
    view (stF 16 [0x04#8, 0x02#8] 0x02#8) fp = some (0x00#8, 2#16) := by decide

/-- VS2 and VS6, and the trace of R118 before them (P8). -/
theorem test_sys_events :
    view ((stF 16 [0x04#8, 0x01#8] 0x04#8).setReg .x0 0x1241#16) (·.log) = some [.console 0x41#8] ∧
    view (stF 16 [0x04#8, 0xFF#8] 0x02#8) (·.log) =
      some [.trace { x0 := 0, x1 := 0, x2 := 0, x3 := 0, sp := 0, bp := 0, pc := 0 } 0x02#8] ∧
    view (stF 16 [0x04#8, 0xFF#8] 0x06#8) (·.log) = some [] := by decide

/-- VB1, VB2, VB4. -/
theorem test_push :
    view (((st 64 [0x10#8, 0x02#8]).setReg .sp 0x20#16).setReg .x1 0x1234#16) top =
      some (0x22#16, some 0x12#8, some 0x34#8) ∧
    view ((st 64 [0x10#8, 0x05#8]).setReg .sp 0x20#16) top = some (0x22#16, some 0x00#8, some 0x20#8) ∧
    view (((st 64 [0x10#8, 0x32#8]).setReg .sp 0x20#16).setReg .x1 0xBEEF#16) top =
      some (0x22#16, some 0xBE#8, some 0xEF#8) := by decide

/-- VB5, VB14. -/
theorem test_push_invalid_and_fault :
    view ((st 64 [0x10#8, 0x0F#8]).setReg .sp 0x20#16) (fun t => (t.reg .sp, t.log)) =
      some (0x20#16, [.diag (.invalidRegister 15#4)]) ∧
    faultOf (step ((st 16 [0x10#8, 0x01#8]).setReg .sp 0xFFFF#16)) = some (.memFault 0xFFFF .write []) := by decide

/-- VB7 and VB13 (sp wraps between the two bytes). -/
theorem test_pushi :
    view ((st 64 [0x11#8, 0x00#8, 0x41#8]).setReg .sp 0x0C#16) top = some (0x0E#16, some 0x00#8, some 0x41#8) ∧
    view ((st 65536 [0x11#8, 0xAB#8, 0xCD#8]).setReg .sp 0xFFFF#16)
      (fun t => (t.reg .sp, t.byteAt 0xFFFF, t.byteAt 0)) = some (1#16, some 0xAB#8, some 0xCD#8) := by decide

/-- VB15 (fault on the second byte) and VA5 (fault on the second immediate byte). -/
theorem test_pushi_faults :
    faultOf (step ((st 16 [0x11#8, 0x12#8, 0x34#8]).setReg .sp 0x0F#16)) = some (.memFault 0x10 .write []) ∧
    faultOf (step ((loadBytes [0x11#8, 0x12#8] 14 (st 16 [])).setReg .pc 14#16)) = some (.memFault 0x10 .fetch []) := by
  decide

/-- A POP with `12 34` on the stack below 0x22. -/
def popState (b : Byte) (h : RegByteHighNibble) : State :=
  (loadBytes [0x12#8, 0x34#8] 0x20 (stP 64 [0x20#8, b] h .unsigned)).setReg .sp 0x22#16

/-- VB9, VB11, VB12. -/
theorem test_pop :
    view (popState 0x05#8 .ignore) (·.reg .sp) = some 0x1234#16 ∧
    view (popState 0x00#8 .ignore) (fun t => (t.reg .sp, t.log)) = some (0x20#16, [.diag (.invalidRegister 0#4)]) ∧
    view (popState 0x32#8 .ignore) (fun t => (t.reg .sp, t.reg .x1)) = some (0x20#16, 0x1234#16) ∧
    view (popState 0x32#8 .invalid) (fun t => (t.reg .x1, t.log)) = some (0#16, [.diag (.invalidRegister 2#4)]) ∧
    refusalOf (step (popState 0x32#8 .refuse)) = some (.regByteHighNibble 0x32#8) := by decide

/-- VB16, VB17. -/
theorem test_pop_faults :
    faultOf (step (st 16 [0x20#8, 0x01#8])) = some (.memFault 0xFFFF .read []) ∧
    faultOf (step ((st 16 [0x20#8, 0x01#8]).setReg .sp 1#16)) = some (.memFault 0xFFFF .read []) := by decide

/-- VA7, VA6: the reserved ADD and an unknown byte. -/
theorem test_add :
    view (st 64 [0x30#8]) (fun t => (t.reg .pc, t.log)) = some (1#16, [.diag (.unknownOpcode 0x30#8)]) ∧
    view (st 64 [0x12#8, 0x34#8]) (fun t => (t.reg .pc, t.log)) = some (1#16, [.diag (.unknownOpcode 0x12#8)]) := by
  decide

/-- VC1, VC3, VC5. -/
theorem test_addi :
    view ((st 64 [0x31#8, 0x00#8, 0x01#8, 0x01#8]).setReg .x0 0xFFFF#16) (·.reg .x0) = some 0#16 ∧
    view ((loadBytes [0x31#8, 0x00#8, 0x04#8, 0x07#8] 0x10 (st 64 [])).setReg .pc 0x10#16) (·.reg .pc) = some 0x18#16 ∧
    view ((stF 64 [0x31#8, 0x00#8, 0x01#8, 0x00#8] 0x08#8).setReg .x0 1#16) (fun t => (t.reg .x0, t.flags, t.log)) =
      some (1#16, 0x08#8, [.diag (.invalidRegister 0#4)]) := by decide

/-- VC7, VC8. -/
theorem test_andi :
    view ((stF 64 [0x71#8, 0x0F#8, 0xF0#8, 0x03#8] 0x04#8).setReg .x2 0xABCD#16) (fun t => (t.reg .x2, t.flags)) =
      some (0x0BC0#16, 0x04#8) ∧
    view ((st 64 [0x71#8, 0x00#8, 0x00#8, 0x01#8]).setReg .x0 0x1234#16) (·.reg .x0) = some 0#16 := by decide

/-- VC10, VC12. -/
theorem test_ori :
    view ((stF 64 [0x81#8, 0x0F#8, 0x0F#8, 0x04#8] 0x08#8).setReg .x3 0x00F0#16) (fun t => (t.reg .x3, t.flags)) =
      some (0x0FFF#16, 0x08#8) ∧
    view ((st 64 [0x81#8, 0xFF#8, 0xFF#8, 0x02#8]).setReg .x1 0x1234#16) (·.reg .x1) = some 0xFFFF#16 := by decide

/-- VC14, VC15, VC16, VC17, VC18. -/
theorem test_cmp :
    view (stF 64 [0x60#8, 0x81#8] 0x08#8) (fun t => (t.flags, t.log)) = some (0#8, [.diag (.invalidRegister 8#4)]) ∧
    view (stF 64 [0x60#8, 0x00#8] 0x04#8) (fun t => (t.flags, t.log)) = some (0#8, [.diag (.invalidRegister 0#4)]) ∧
    view (stF 64 [0x60#8, 0x18#8] 0x04#8) (fun t => (t.flags, t.log)) = some (0#8, [.diag (.invalidRegister 8#4)]) ∧
    view ((stF 64 [0x60#8, 0x11#8] 0x06#8).setReg .x0 7#16) fp = some (0x02#8, 2#16) ∧
    view ((stF 64 [0x60#8, 0x71#8] 0x00#8).setReg .x0 2#16) fp = some (0x00#8, 2#16) := by decide

/-- Rows of the `CMP_MODE` table of 95_test_vectors.md: unsigned, signed16, wrap16. -/
theorem test_cmp_modes :
    [CmpMode.unsigned, .signed16, .wrap16].map (aluCmp · 0x8000#16 0x7FFF#16) = [.pos, .neg, .pos] ∧
    [CmpMode.unsigned, .signed16, .wrap16].map (aluCmp · 0x0000#16 0x8000#16) = [.neg, .pos, .neg] ∧
    [CmpMode.unsigned, .signed16, .wrap16].map (aluCmp · 0x0000#16 0xFFFF#16) = [.neg, .pos, .pos] ∧
    [CmpMode.unsigned, .signed16, .wrap16].map (aluCmp · 0x0001#16 0x8001#16) = [.neg, .pos, .neg] ∧
    [CmpMode.unsigned, .signed16, .wrap16].map (aluCmp · 0xFFFF#16 0xFFFE#16) = [.pos, .pos, .pos] := by decide

/-- W7 with x0 = 3, 5 and 9, and VC19. -/
theorem test_cmpi :
    [3#16, 5#16, 9#16].map (fun v => view ((st 64 [0x61#8, 0x00#8, 0x05#8, 0x01#8]).setReg .x0 v) fp) =
      [some (0x04#8, 4#16), some (0x00#8, 4#16), some (0x08#8, 4#16)] ∧
    view (stF 64 [0x61#8, 0x00#8, 0x05#8, 0x00#8] 0x08#8) (fun t => (t.flags, t.log)) =
      some (0#8, [.diag (.invalidRegister 0#4)]) := by decide

/-- The five flag bytes of table V-D. -/
def vdFlags : List Byte := [0x00#8, 0x04#8, 0x08#8, 0x06#8, 0x09#8]

/-- One row of table V-D: `step()` at pc = 8 on `op 00 20`. -/
def vdRow (op : Byte) : List (Option (Byte × Word)) :=
  vdFlags.map fun f => (nextOf (stepInstr ((({ loadBytes [op, 0x00#8, 0x20#8] 8 (st 64 []) with flags := f }) : State).setReg
    .pc 8#16))).map fp

theorem test_branch :
    vdRow 0x50#8 = [some (0x00#8, 0x20#16), some (0x00#8, 0x20#16), some (0x00#8, 0x20#16), some (0x02#8, 0x20#16),
      some (0x01#8, 0x20#16)] := by decide
theorem test_branchLessThan :
    vdRow 0x51#8 = [some (0x00#8, 0x0B#16), some (0x00#8, 0x20#16), some (0x08#8, 0x0B#16), some (0x02#8, 0x20#16),
      some (0x09#8, 0x0B#16)] := by decide
theorem test_branchGreaterThan :
    vdRow 0x52#8 = [some (0x00#8, 0x0B#16), some (0x04#8, 0x0B#16), some (0x00#8, 0x20#16), some (0x06#8, 0x0B#16),
      some (0x01#8, 0x20#16)] := by decide
theorem test_branchEqualTo :
    vdRow 0x53#8 = [some (0x00#8, 0x20#16), some (0x04#8, 0x0B#16), some (0x08#8, 0x0B#16), some (0x06#8, 0x0B#16),
      some (0x09#8, 0x0B#16)] := by decide
theorem test_branchNotEqualTo :
    vdRow 0x54#8 = [some (0x00#8, 0x0B#16), some (0x00#8, 0x20#16), some (0x00#8, 0x20#16), some (0x02#8, 0x20#16),
      some (0x01#8, 0x20#16)] := by decide

/-- VA4 (the fetch sum is not reduced), VA9, VA10, VA11, VD4. -/
theorem test_loop :
    faultOf (step (((st 65536 []).setReg .bp 1#16).setReg .pc 0xFFFF#16)) = some (.memFault 0x10000 .fetch []) ∧
    faultOf (step (st 0 [])) = some .pcOutOfRange ∧
    faultOf (step ((st 16 []).setReg .pc 0x10#16)) = some .pcOutOfRange ∧
    faultOf (step ((stF 16 [] 0x01#8).setReg .pc 0x10#16)) = some .halted ∧
    faultOf (step (((st 32 []).setReg .bp 0x10#16).setReg .pc 0x10#16)) = some (.memFault 0x20 .fetch []) := by decide

/-- The very next step after reset runs the placed instruction: ORI x0, 0x0041 (`81 00 41 01`). -/
theorem test_withFetchWord :
    (nextOf (step (State.reset.withFetchWord 32 0x01410081))).map (·.reg .x0) = some 0x0041#16 := by decide

/-- VF1 and VF3: the launch refused, and the launch of P6a at its entry. -/
theorem test_launch :
    refusalOf (launch { defaultLaunch with memSize := 16, loadAddr := 10, image := List.replicate 7 1 }) =
      some .launchImageTooLarge ∧
    (nextOf (launch { defaultLaunch with memSize := 32, bpInit := 0x10#16, loadAddr := 0x10, image := [0x50#8, 0x00#8, 0x03#8] })).map
      (fun t => (t.reg .bp, t.byteAt 0x0F, t.byteAt 0x10, t.byteAt 0x12)) =
      some (0x10#16, some 0#8, some 0x50#8, some 0x03#8) := by decide

/-- A step that traces and then faults: the trace stands in the log the fault carries (60_exceptions.md R237). -/
theorem test_fault_keeps_trace :
    faultOf (step (stF 1 [0x04#8] 0x02#8)) =
      some (.memFault 1 .fetch [.trace { x0 := 0, x1 := 0, x2 := 0, x3 := 0, sp := 0, bp := 0, pc := 0 } 0x02#8]) := by
  decide

/-- The session after a host move, if there is one. -/
def sessionOf (o : Host.Outcome Session Fault Refusal) : Option Session :=
  match o with
  | .next c => some c
  | .fault _ | .refused _ => none

/-- Out of order: a load before sp is seeded, a run before the load, sp seeded twice (70_reset_and_hazards.md R275). -/
theorem test_host_order :
    sessionOf (hostMove (.load 0 [0x00#8]) (Session.create 16 defaultParams 0)) = none ∧
    sessionOf (hostMove .startRun { phase := .spSeeded, machine := st 16 [], seed := 0 }) = none ∧
    sessionOf (hostMove (.seedSp 1#16) { phase := .spSeeded, machine := st 16 [], seed := 0 }) = none := by decide

/-- The reset state is the default launch. -/
theorem test_reset_is_launch : nextOf (launch defaultLaunch) = some State.reset := by decide

/-- The two ports are apart: one byte on the console, none of it on the diagnostic port. -/
theorem test_ports :
    ({ st 0 [] with log := [.console 0x41#8, .diag (.unknownOpcode 0x30#8)] } : State).consolePort = [0x41#8] ∧
    ({ st 0 [] with log := [.console 0x41#8] } : State).diagnosticPort = [] := by
  refine ⟨by decide, by rfl⟩

/-- The image of program P3 of 95_test_vectors.md: labels resolved, the register byte's high nibble 0. -/
theorem test_assemble_P3 :
    assemble defaultOpcodeMap [.pushi (.label 0), .branch (.label 1), .label 0, .sys 1#8, .sys 0#8, .label 1,
      .ori .x0 (.num 0x0042#16), .pop .pc] =
      some [0x11#8, 0x00#8, 0x06#8, 0x50#8, 0x00#8, 0x0A#8, 0x04#8, 0x01#8, 0x04#8, 0x00#8, 0x81#8, 0x00#8, 0x42#8,
        0x01#8, 0x20#8, 0x07#8] := by decide

/-- The image of program P2 up to its last line. -/
theorem test_assemble_P2 :
    assemble defaultOpcodeMap [.ori .x0 (.num 0x33#16), .label 7, .sys 1#8, .addi .x0 (.num 0xFFFF#16),
      .cmpi .x0 (.num 0x30#16), .branchNotEqualTo (.label 7), .sys 0#8] =
      some [0x81#8, 0x00#8, 0x33#8, 0x01#8, 0x04#8, 0x01#8, 0x31#8, 0xFF#8, 0xFF#8, 0x01#8, 0x61#8, 0x00#8, 0x30#8,
        0x01#8, 0x54#8, 0x00#8, 0x04#8, 0x04#8, 0x00#8] := by decide

/-- A written zero leaves no entry, so equal memories are equal data. -/
theorem test_memory_canonical :
    (((st 64 []).putByte 5 7#8).putByte 5 0#8).mem = (st 64 []).mem ∧
    (((st 64 []).putByte 9 1#8).putByte 3 2#8).mem = (((st 64 []).putByte 3 2#8).putByte 9 1#8).mem := by decide

end Sys2Proof.Tests
end

