-- ==== Sys2Proof/Tests/Witnesses.lean ====
section
/-! SUPPORT. For each statement with hypotheses, a concrete state and operands that meet all of them together; one for
each clause, at a boundary of its range where it has one. The name after witness_ is the statement's. -/

namespace Sys2Proof.Tests
open Sys2Proof.Machine

/-- Whether an instruction answers a next state. -/
def runs (i : Instr) (s : State) : Bool := (nextOf (exec i s)).isSome

/-- The next state, where the test has shown there is one. -/
def nextD (o : Host.Outcome State Fault Refusal) : State := (nextOf o).getD State.reset

/-- Another well-formed map: every low nibble the default's plus 8. -/
def otherMap : OpcodeMap where
  push := 8
  pushi := 9
  pop := 8
  add := 8
  addi := 9
  branch := 8
  branchLessThan := 9
  branchGreaterThan := 10
  branchEqualTo := 11
  branchNotEqualTo := 12
  cmp := 8
  cmpi := 9
  andi := 9
  ori := 9

theorem witness_DecodeEncodeAgree : defaultOpcodeMap.wf = true ∧ otherMap.wf = true := by decide

theorem witness_DecodedBytesAreTheEncoding :
    decode defaultOpcodeMap [0x10#8, 0x02#8, 0xFF#8] = .ok (.push 0#4 2#4, [0xFF#8]) := by rfl

theorem witness_LengthIsFixedByTheOpcode :
    decode defaultOpcodeMap [0x31#8, 0x00#8, 0x01#8, 0x01#8] = .ok (.addi 1#16 0#4 1#4, []) ∧
    decode defaultOpcodeMap [0x31#8, 0xFF#8, 0xFF#8, 0x00#8, 0x00#8] = .ok (.addi 0xFFFF#16 0#4 0#4, [0x00#8]) :=
  ⟨rfl, rfl⟩

/-- The last byte below N, and N itself. -/
theorem witness_FetchByteReadsAtBpPlusPc :
    ((st 16 []).setReg .pc 15#16).byteAt 15 = some 0x00#8 ∧
    (((st 16 []).setReg .pc 15#16).setReg .bp 1#16).memSize ≤
      ((((st 16 []).setReg .pc 15#16).setReg .bp 1#16).reg .bp).toNat +
        ((((st 16 []).setReg .pc 15#16).setReg .bp 1#16).reg .pc).toNat := by decide

theorem witness_FetchedWordIsBigEndian : CodeAt (st 2 [0xAB#8, 0xCD#8]) [0xAB#8, 0xCD#8] := by decide

theorem witness_StepRunsTheDecodedInstruction :
    LoopGoesOn (st 4 [0x31#8, 0x00#8, 0x01#8, 0x01#8]) ∧
    CodeAt (st 4 [0x31#8, 0x00#8, 0x01#8, 0x01#8]) [0x31#8, 0x00#8, 0x01#8, 0x01#8] ∧
    decode (st 4 [0x31#8, 0x00#8, 0x01#8, 0x01#8]).params.opcodeMap [0x31#8, 0x00#8, 0x01#8, 0x01#8] =
      .ok (.addi 1#16 0#4 1#4, []) := ⟨by decide, by decide, rfl⟩

/-- An unknown byte in the last byte of memory. -/
theorem witness_UnknownOpcodeIsReportedAndSkipped :
    LoopGoesOn (st 1 [0x12#8]) ∧ CodeAt (st 1 [0x12#8]) [0x12#8] ∧
      ∀ k, opcodeByte (st 1 [0x12#8]).params.opcodeMap k ≠ 0x12#8 := by
  refine ⟨by decide, by decide, fun k => ?_⟩
  cases k <;> decide

/-- bp + pc = N with pc = N - 1; pc = N. -/
theorem witness_LoopBoundAndFetchAddressDisagree :
    (((st 16 []).setReg .pc 15#16).setReg .bp 1#16).flag .halt = false ∧
    ((((st 16 []).setReg .pc 15#16).setReg .bp 1#16).reg .pc).toNat < 16 ∧
    (((st 16 []).setReg .pc 15#16).setReg .bp 1#16).memSize ≤
      ((((st 16 []).setReg .pc 15#16).setReg .bp 1#16).reg .bp).toNat +
        ((((st 16 []).setReg .pc 15#16).setReg .bp 1#16).reg .pc).toNat ∧
    ((st 16 []).setReg .pc 16#16).flag .halt = false ∧
    ((st 16 []).setReg .pc 16#16).memSize ≤ (((st 16 []).setReg .pc 16#16).reg .pc).toNat := by decide

/-- VA5: PUSHI at the last two bytes, its second immediate byte at N. -/
theorem witness_OperandFetchFaults :
    LoopGoesOn ((loadBytes [0x11#8, 0x12#8] 14 (st 16 [])).setReg .pc 14#16) ∧
    decodeOpcode ((loadBytes [0x11#8, 0x12#8] 14 (st 16 [])).setReg .pc 14#16).params.opcodeMap 0x11#8 = some .pushi ∧
    CodeAt ((loadBytes [0x11#8, 0x12#8] 14 (st 16 [])).setReg .pc 14#16) [0x11#8, 0x12#8] ∧
    [0x12#8].length < operandLength .pushi ∧
    ((loadBytes [0x11#8, 0x12#8] 14 (st 16 [])).setReg .pc 14#16).memSize ≤
      codeAddr ((loadBytes [0x11#8, 0x12#8] 14 (st 16 [])).setReg .pc 14#16) 2 := by decide

/-- HALT set; the raw pc at N; and the loop going on into a next state, a fault and a refusal. -/
theorem witness_RunRepeatsStepUntilItEnds :
    (stF 16 [] 0x01#8).flag .halt = true ∧
    (((st 16 []).setReg .pc 16#16).flag .halt = false ∧
      ((st 16 []).setReg .pc 16#16).memSize ≤ (((st 16 []).setReg .pc 16#16).reg .pc).toNat) ∧
    (LoopGoesOn (st 16 []) ∧ (nextOf (stepInstr (st 16 []))).isSome) ∧
    (LoopGoesOn (st 1 [0x04#8]) ∧ faultOf (stepInstr (st 1 [0x04#8])) = some (.memFault 1 .fetch [])) ∧
    (LoopGoesOn (popState 0x32#8 .refuse) ∧
      refusalOf (stepInstr (popState 0x32#8 .refuse)) = some (.regByteHighNibble 0x32#8)) := by decide

theorem witness_LoopBoundAtTheEndsOfTheRange :
    (st 65536 []).flag .halt = false ∧ (st 65536 []).memSize = 65536 ∧
    (st 0 []).flag .halt = false ∧ (st 0 []).memSize = 0 := by decide

/-- A step with the trace alone, and one with the trace and a report. -/
theorem witness_StepEmitsTraceThenAtMostOneEvent :
    (nextOf (step (stF 16 [0x00#8] 0x02#8))).isSome ∧ (nextOf (step (stF 16 [0xFF#8] 0x02#8))).isSome := by decide

theorem witness_StepKeepsTheInvariant :
    (stF 16 [0x60#8, 0x12#8] 0x04#8).Inv ∧ (nextOf (step (stF 16 [0x60#8, 0x12#8] 0x04#8))).isSome := by decide

theorem witness_HaltedRunKeepsTheInvariant :
    (stF 16 [0x60#8] 0x05#8).Inv ∧ run 0 (stF 16 [0x60#8] 0x05#8) = .halted (stF 16 [0x60#8] 0x05#8) := by decide

theorem witness_StepKeepsSizeAndParams : (nextOf (step (st 16 [0x11#8, 0x12#8, 0x34#8]))).isSome := by decide

theorem witness_OnlyPushesWriteMemory :
    runs (.pop 0#4 1#4) (st 65536 [1#8]) = true ∧ runs (.addi 1#16 0#4 1#4) (st 0 []) = true := by decide

/-- SYS 0x00, SYS 0x02, and an instruction that is neither a comparison nor a branch. -/
theorem witness_FlagWriters :
    runs (.sys 0#8) (st 0 []) = true ∧ runs (.sys 2#8) (st 0 []) = true ∧
    runs (.ori 1#16 0#4 1#4) (stF 0 [] 0x04#8) = true := by decide

/-- One register changed by each group of instructions. -/
theorem witness_RegisterWriters :
    (nextD (exec (.pushi 1#16) (st 16 []))).reg .sp ≠ (st 16 []).reg .sp ∧ runs (.pushi 1#16) (st 16 []) = true ∧
    (nextD (exec (.pop 0#4 1#4) (popState 0#8 .ignore))).reg .x0 ≠ (popState 0#8 .ignore).reg .x0 ∧
    runs (.pop 0#4 1#4) (popState 0#8 .ignore) = true ∧
    (nextD (exec (.addi 1#16 0#4 7#4) (st 0 []))).reg .pc ≠ (st 0 []).reg .pc ∧
    runs (.addi 1#16 0#4 7#4) (st 0 []) = true ∧
    (nextD (exec (.branch 9#16) (st 0 []))).reg .pc ≠ (st 0 []).reg .pc ∧ runs (.branch 9#16) (st 0 []) = true := by
  decide

theorem witness_ConsoleCarriesOnlySysPutCharacter :
    runs (.sys 1#8) (st 0 []) = true ∧ runs .add (st 0 []) = true := by decide

/-- A next state, a MemFault, the two ends of the loop test, and a refusal. -/
theorem witness_LogIsNeverRead :
    (nextOf (step (stF 16 [0x04#8, 0x01#8] 0x02#8))).isSome ∧ faultOf (step (st 1 [0x04#8])) = some (.memFault 1 .fetch []) ∧
    faultOf (step (stF 16 [] 0x01#8)) = some .halted ∧ faultOf (step (st 0 [])) = some .pcOutOfRange ∧
    refusalOf (step (popState 0x32#8 .refuse)) = some (.regByteHighNibble 0x32#8) := by decide

theorem witness_RefusedOnlyForARegisterByte :
    refusalOf (step (popState 0x32#8 .refuse)) = some (.regByteHighNibble 0x32#8) := by decide

theorem witness_FaultsNameAnAddressOutOfRange :
    faultOf (stepInstr (st 1 [0x04#8])) = some (.memFault 1 .fetch []) ∧
    faultOf (stepInstr ((st 16 [0x10#8, 0x01#8]).setReg .sp 15#16)) = some (.memFault 16 .write []) := by decide

/-- An image that ends at N, and one that is a byte longer. -/
theorem witness_LoadCopiesTheImage :
    (st 16 []).mem.wf ∧ 9 + (List.replicate 7 1#8).length ≤ (st 16 []).memSize := by decide

theorem witness_OversizedImageIsRefused : (st 16 []).memSize < 9 + (List.replicate 8 1#8).length := by decide

theorem witness_LaunchIsTheCleanEntryState :
    Launch.wf { defaultLaunch with memSize := 16, loadAddr := 9, image := List.replicate 7 1 } = true := by decide

theorem witness_HostMovesReachTheLaunch :
    (nextOf (launch { defaultLaunch with memSize := 16, loadAddr := 9, image := List.replicate 7 1 })).isSome := by
  decide

/-- A move taken, a move out of its place, one during the run, and a load that does not fit. -/
theorem witness_HostMovesKeepTheirOrder :
    (sessionOf (hostMove (.seedSp 9#16) (Session.create 16 defaultParams 0))).isSome ∧
    ({ phase := .loaded, machine := st 16 [], seed := 0 } : Session).phase ≠ .running ∧
    sessionOf (hostMove .read { phase := .running, machine := st 16 [], seed := 0 }) = none ∧
    ({ phase := .bpSet, machine := st 16 [], seed := 0 } : Session).machine.memSize < 16 + [0x00#8].length := by decide

/-- A running session whose turn answers a next state, each of the three stops, and the phases outside a run. -/
theorem witness_HostHasNoMoveDuringARun :
    ({ phase := .running, machine := st 16 [], seed := 0 } : Session).phase = .running ∧
    faultOf (step (stF 16 [] 0x01#8)) = some .halted ∧ faultOf (step (st 0 [])) = some .pcOutOfRange ∧
    faultOf (step (st 1 [0x04#8])) = some (.memFault 1 .fetch []) ∧ (nextOf (step (st 16 []))).isSome ∧
    ({ phase := .created, machine := st 16 [], seed := 0 } : Session).phase ≠ .running ∧
    ({ phase := .ended .halted, machine := st 16 [], seed := 0 } : Session).phase = .ended .halted := by decide

/-- The last two bytes below N; sp at N; sp at N - 1; and the wrap at N = 65536. -/
theorem witness_PushSixteen :
    ((st 16 []).setReg .sp 14#16).mem.wf ∧ (((st 16 []).setReg .sp 14#16).reg .sp).toNat < 16 ∧
    (((st 16 []).setReg .sp 14#16).reg .sp + 1).toNat < ((st 16 []).setReg .sp 14#16).memSize ∧
    ((st 16 []).setReg .sp 16#16).memSize ≤ (((st 16 []).setReg .sp 16#16).reg .sp).toNat ∧
    (((st 16 []).setReg .sp 15#16).reg .sp).toNat < ((st 16 []).setReg .sp 15#16).memSize ∧
    ((st 16 []).setReg .sp 15#16).memSize ≤ (((st 16 []).setReg .sp 15#16).reg .sp + 1).toNat ∧
    (((st 65536 []).setReg .sp 0xFFFF#16).reg .sp + 1).toNat < ((st 65536 []).setReg .sp 0xFFFF#16).memSize := by
  decide

/-- sp = 2; sp = 0 (the first read at 0xFFFF); sp = 1 (the second). -/
theorem witness_PopSixteen :
    ((st 16 []).setReg .sp 2#16).byteAt (((st 16 []).setReg .sp 2#16).reg .sp - 1).toNat = some 0#8 ∧
    ((st 16 []).setReg .sp 2#16).byteAt (((st 16 []).setReg .sp 2#16).reg .sp - 2).toNat = some 0#8 ∧
    ((st 16 []).setReg .sp 0#16).memSize ≤ (((st 16 []).setReg .sp 0#16).reg .sp - 1).toNat ∧
    (((st 16 []).setReg .sp 1#16).reg .sp - 1).toNat < ((st 16 []).setReg .sp 1#16).memSize ∧
    ((st 16 []).setReg .sp 1#16).memSize ≤ (((st 16 []).setReg .sp 1#16).reg .sp - 2).toNat := by decide

theorem witness_PopAfterPushGivesTheValueBack :
    ((st 65536 []).setReg .sp 0xFFFF#16).mem.wf ∧
    push16 0xBEEF#16 ((st 65536 []).setReg .sp 0xFFFF#16) =
      .ok (nextD (pushOutcome 0xBEEF#16 ((st 65536 []).setReg .sp 0xFFFF#16))) := ⟨by decide, rfl⟩

theorem witness_PushCompletes :
    ((st 16 []).setReg .sp 14#16).mem.wf ∧
    (((st 16 []).setReg .sp 14#16).reg .sp).toNat < ((st 16 []).setReg .sp 14#16).memSize ∧
    (((st 16 []).setReg .sp 14#16).reg .sp + 1).toNat < ((st 16 []).setReg .sp 14#16).memSize ∧
    resolve 5#4 = some .sp := by decide

/-- High nibble 0 under refuse, and a non-zero one under ignore; sp itself as the register. -/
theorem witness_PopCompletes :
    (NamesReg (popState 0#8 .refuse) 0#4 5#4 .sp ∧ NamesReg (popState 0#8 .ignore) 3#4 2#4 .x1) ∧
    (popState 0#8 .ignore).byteAt ((popState 0#8 .ignore).reg .sp - 1).toNat = some 0x34#8 ∧
    (popState 0#8 .ignore).byteAt ((popState 0#8 .ignore).reg .sp - 2).toNat = some 0x12#8 := by decide

/-- sp = N and sp = N - 1 for the pushes, sp = 0 and sp = 1 for the pop. -/
theorem witness_StackInstructionsFault :
    (((st 16 []).setReg .sp 16#16).memSize ≤ (((st 16 []).setReg .sp 16#16).reg .sp).toNat ∧ resolve 7#4 = some .pc) ∧
    ((((st 16 []).setReg .sp 15#16).reg .sp).toNat < ((st 16 []).setReg .sp 15#16).memSize ∧
      ((st 16 []).setReg .sp 15#16).memSize ≤ (((st 16 []).setReg .sp 15#16).reg .sp + 1).toNat) ∧
    ((st 16 []).setReg .sp 0#16).memSize ≤ (((st 16 []).setReg .sp 0#16).reg .sp - 1).toNat ∧
    ((((st 16 []).setReg .sp 1#16).reg .sp - 1).toNat < ((st 16 []).setReg .sp 1#16).memSize ∧
      ((st 16 []).setReg .sp 1#16).memSize ≤ (((st 16 []).setReg .sp 1#16).reg .sp - 2).toNat) := by decide

/-- P7's shape: sp, and then sp + 1, at the next fetch address. -/
theorem witness_PushedByteIsFetchedNext :
    ((st 16 []).setReg .pc 6#16).mem.wf ∧
    push16 0x0400#16 (((st 16 []).setReg .pc 6#16).setReg .sp 6#16) =
      .ok (nextD (pushOutcome 0x0400#16 (((st 16 []).setReg .pc 6#16).setReg .sp 6#16))) ∧
    fetchAddr (nextD (pushOutcome 0x0400#16 (((st 16 []).setReg .pc 6#16).setReg .sp 6#16))) = 6 ∧
    push16 0x0400#16 (((st 16 []).setReg .pc 6#16).setReg .sp 5#16) =
      .ok (nextD (pushOutcome 0x0400#16 (((st 16 []).setReg .pc 6#16).setReg .sp 5#16))) ∧
    fetchAddr (nextD (pushOutcome 0x0400#16 (((st 16 []).setReg .pc 6#16).setReg .sp 5#16))) = (5#16 + 1#16).toNat :=
  ⟨by decide, rfl, by decide, rfl, by decide⟩

/-- Indices 0, 8 and 15; a valid index under invalid; either index of CMP. -/
theorem witness_InvalidRegisterIsReportedAndSkipped :
    (resolve 0#4 = none ∧ resolve 8#4 = none ∧ resolve 15#4 = none ∧ resolve 7#4 = some .pc) ∧
    NamesNone (popState 0#8 .ignore) 3#4 8#4 ∧ NamesNone (popState 0#8 .refuse) 0#4 0#4 ∧
    NamesNone (popState 0#8 .invalid) 1#4 2#4 ∧
    (((popState 0#8 .invalid).reg .sp - 1).toNat < (popState 0#8 .invalid).memSize ∧
      ((popState 0#8 .invalid).reg .sp - 2).toNat < (popState 0#8 .invalid).memSize) ∧
    (resolve 1#4 = some .x0 ∧ resolve 0#4 = none) := by decide

theorem witness_HighNibbleIsRefusedUnderRefuse :
    (3#4 : Nibble) ≠ 0#4 ∧ (popState 0x32#8 .refuse).params.regByteHighNibble = .refuse ∧
    ((popState 0x32#8 .refuse).reg .sp - 1).toNat < (popState 0x32#8 .refuse).memSize ∧
    ((popState 0x32#8 .refuse).reg .sp - 2).toNat < (popState 0x32#8 .refuse).memSize := by decide

theorem witness_AddImmediateCompletes :
    NamesReg (stP 0 [] .ignore .unsigned) 15#4 7#4 .pc ∧ NamesReg (stP 0 [] .refuse .unsigned) 0#4 1#4 .x0 := by decide

theorem witness_BitwiseImmediateCompletes :
    NamesReg (stP 0 [] .ignore .unsigned) 15#4 6#4 .bp ∧ NamesReg (stP 0 [] .invalid .unsigned) 0#4 5#4 .sp := by decide

theorem witness_CompareRegistersCompletes : resolve 1#4 = some .x0 ∧ resolve 7#4 = some .pc := by decide

theorem witness_CompareImmediateCompletes :
    NamesReg (stP 0 [] .ignore .wrap16) 1#4 1#4 .x0 ∧ NamesReg (stP 0 [] .refuse .signed16) 0#4 7#4 .pc := by decide

/-- Bit 15 set in both operands, and clear in both. -/
theorem witness_CmpModesAgreeOnEqualSigns :
    (0x8000#16).getLsbD 15 = (0xFFFF#16).getLsbD 15 ∧ (0x0000#16).getLsbD 15 = (0x7FFF#16).getLsbD 15 := by decide

/-- LESS_THAN alone, GREATER_THAN alone, neither. -/
theorem witness_TakenBranchCompletes :
    (stF 0 [] 0x04#8).flag .lessThan = true ∧ (stF 0 [] 0x08#8).flag .greaterThan = true ∧
    ((stF 0 [] 0x02#8).flag .lessThan = false ∧ (stF 0 [] 0x02#8).flag .greaterThan = false) := by decide

theorem witness_UntakenBranchChangesNothing :
    (stF 0 [] 0x08#8).flag .lessThan = false ∧ (stF 0 [] 0x04#8).flag .greaterThan = false ∧
    (stF 0 [] 0x04#8).flag .lessThan = true ∧ (stF 0 [] 0x08#8).flag .greaterThan = true ∧
    ((stF 0 [] 0x02#8).flag .lessThan = false ∧ (stF 0 [] 0x02#8).flag .greaterThan = false) := by decide

/-- The byte of the reserved ADD in the last byte of memory. -/
theorem witness_ReservedAddCompletes :
    (st 1 [0x30#8]).params.opcodeMap.wf = true ∧ LoopGoesOn (st 1 [0x30#8]) ∧
      CodeAt (st 1 [0x30#8]) [0x3#4 ++ (st 1 [0x30#8]).params.opcodeMap.add] := by decide

theorem witness_SetCmpFlagsSetsAtMostOne :
    (st 0 []).flag .lessThan = false ∧ (st 0 []).flag .greaterThan = false := by decide

theorem witness_NopOnlyAdvancesPc :
    (st 1 []).params.opcodeMap.wf = true ∧ LoopGoesOn (st 1 []) ∧ CodeAt (st 1 []) [0x00#8] := by decide

/-- HALT set already; and SYS 0x00 as the next instruction. -/
theorem witness_SysHaltSetsHalt :
    (stF 0 [] 0x01#8).flag .halt = true ∧ runs .nop (stF 0 [] 0x01#8) = true ∧
    (st 2 [0x04#8, 0x00#8]).params.opcodeMap.wf = true ∧ LoopGoesOn (st 2 [0x04#8, 0x00#8]) ∧
    CodeAt (st 2 [0x04#8, 0x00#8]) [0x04#8, 0x00#8] := by decide

/-- n = 3 and n = 255. -/
theorem witness_SysOtherDoesNothing :
    3 ≤ (3#8).toNat ∧ 3 ≤ (255#8).toNat ∧ (st 2 [0x04#8, 3#8]).params.opcodeMap.wf = true ∧
    LoopGoesOn (st 2 [0x04#8, 3#8]) ∧ CodeAt (st 2 [0x04#8, 3#8]) [0x04#8, 3#8] := by decide

/-- A line with a register byte, one with a label, and one whose label nothing defines. -/
theorem witness_AssembledLineDecodes :
    defaultOpcodeMap.wf = true ∧ AsmLineIs [] (.push .pc) (.push 0#4 7#4) ∧
    AsmLineIs [(4, 9#16)] (.addi .bp (.label 4)) (.addi 9#16 0#4 6#4) ∧
    asmBytes defaultOpcodeMap [(4, 9#16)] (.branch (.label 5)) = none :=
  ⟨by decide, rfl, ⟨9#16, rfl, rfl⟩, rfl⟩

end Sys2Proof.Tests
end

/-! What a step keeps of the machine it was created as, and what the console carries (00_scope.md R6, R9). -/

section
namespace Sys2Proof.Machine

/-! ### The size of memory and the parameters -/

/-- `t` is a machine of the size and the parameters of `s` (00_scope.md R9, 10_state.md R40). -/
def SameConfig (s t : State) : Prop := t.memSize = s.memSize ∧ t.params = s.params

theorem SameConfig.trans {s u t : State} (h1 : SameConfig s u) (h2 : SameConfig u t) : SameConfig s t :=
  ⟨h2.1.trans h1.1, h2.2.trans h1.2⟩

theorem traceStep_sameConfig (s : State) : SameConfig s (traceStep s) := by simp [SameConfig]

theorem setReg_sameConfig (s : State) (r : Reg) (v : Word) : SameConfig s (s.setReg r v) := by simp [SameConfig]

theorem emit_sameConfig (s : State) (e : Event) : SameConfig s (s.emit e) := by simp [SameConfig]

theorem push16_sameConfig {v : Word} {s t : State} (h : push16 v s = .ok t) : SameConfig s t := by
  obtain ⟨-, -, rfl⟩ := push16_ok.1 h
  simp [SameConfig]

theorem pop16_sameConfig {v : Word} {s t : State} (h : pop16 s = .ok (v, t)) : SameConfig s t := by
  obtain ⟨_, _, -, -, -, rfl⟩ := pop16_ok.1 h
  exact setReg_sameConfig ..

theorem Effect.sameConfig {s t : State} (h : Effect s t) : SameConfig s t := by
  cases h with
  | same h => subst h; exact ⟨rfl, rfl⟩
  | event e h => subst h; exact emit_sameConfig ..
  | register r v h => subst h; exact setReg_sameConfig ..
  | pushed v h => exact push16_sameConfig h
  | popped r v u hp h => subst h; exact (pop16_sameConfig hp).trans (setReg_sameConfig ..)
  | poppedNone idx v u hp h => subst h; exact (pop16_sameConfig hp).trans (emit_sameConfig ..)
  | compared c h => subst h; simp [SameConfig]
  | comparedNone idx h => subst h; simp [SameConfig, reportInvalidRegister]
  | jumped w h | halted h | toggled h => subst h; simp [SameConfig]

theorem fetchByte_sameConfig {s t : State} {b : Byte} (h : fetchByte s = .ok (b, t)) : SameConfig s t := by
  obtain ⟨-, rfl⟩ := fetchByte_ok.1 h
  exact setReg_sameConfig ..

theorem fetchBytes_sameConfig {n : Nat} {s t : State} {bs : List Byte} (h : fetchBytes n s = .ok (bs, t)) :
    SameConfig s t := by
  obtain ⟨-, rfl, -⟩ := fetchBytes_ok h
  exact setReg_sameConfig ..

/-- The trace, the fetches and the instruction's own effect each keep the configuration. -/
theorem stepInstr_sameConfig {s t : State} (h : stepInstr s = .next t) : SameConfig s t := by
  obtain ⟨op, s1, hop, hrest⟩ := stepInstr_next h
  have h1 : SameConfig s s1 := (traceStep_sameConfig s).trans (fetchByte_sameConfig hop)
  rcases hrest with ⟨-, rfl⟩ | ⟨k, bs, s2, -, hbs, hexec⟩
  · exact h1.trans (emit_sameConfig ..)
  · exact (h1.trans (fetchBytes_sameConfig hbs)).trans (exec_effect hexec).sameConfig

/-- Settles O18: a turn of the run loop that answers a next state is one `step()`. -/
theorem stepKeepsSizeAndParams : Obligations.StepKeepsSizeAndParams :=
  fun _ _ h => stepInstr_sameConfig (step_next h).2

/-! ### The output log and the console port -/

/-- From `s` to `t` the log has grown by one report at most. -/
def AtMostReport (s t : State) : Prop := t.log = s.log ∨ ∃ d, t.log = s.log ++ [.diag d]

theorem push16_log {v : Word} {s t : State} (h : push16 v s = .ok t) : t.log = s.log := by
  obtain ⟨-, -, rfl⟩ := push16_ok.1 h
  simp

theorem pop16_log {v : Word} {s t : State} (h : pop16 s = .ok (v, t)) : t.log = s.log := by
  obtain ⟨_, _, -, -, -, rfl⟩ := pop16_ok.1 h
  simp

theorem branchTo_log {b : Bool} {w : Word} {s t : State} (h : branchTo b w s = .next t) : t.log = s.log := by
  cases b <;> cases h <;> simp

/-- An action that emits nothing, on a register operand, leaves at most the report of an invalid one (R115). -/
theorem withRegOperand_atMostReport {h r : Nibble} {s t : State} {act : Reg → State}
    (hact : ∀ x, (act x).log = s.log) (hx : withRegOperand h r s act = .next t) : AtMostReport s t := by
  rcases withRegOperand_next.1 hx with ⟨-, rfl⟩ | ⟨x, -, rfl⟩
  · exact .inr ⟨_, rfl⟩
  · exact .inl (hact x)

theorem execPush_atMostReport {h r : Nibble} {s t : State} (hx : execPush h r s = .next t) : AtMostReport s t := by
  unfold execPush at hx
  split at hx
  · cases hx
    exact .inr ⟨_, rfl⟩
  · exact .inl (push16_log (pushOutcome_next.1 hx))

theorem execPop_atMostReport {h r : Nibble} {s t : State} (hx : execPop h r s = .next t) : AtMostReport s t := by
  obtain ⟨v, u, hp, ⟨-, rfl⟩ | ⟨x, -, rfl⟩⟩ := execPop_next hx
  · exact .inr ⟨_, congrArg (· ++ _) (pop16_log hp)⟩
  · exact .inl (by rw [State.setReg_log, pop16_log hp])

theorem execCmp_atMostReport {a b : Nibble} {s t : State} (hx : execCmp a b s = .next t) : AtMostReport s t := by
  unfold execCmp at hx
  split at hx <;> cases hx
  · exact .inr ⟨_, rfl⟩
  · exact .inr ⟨_, rfl⟩
  · exact .inl (by simp)

theorem execSys_putCharacter (s : State) : execSys 0x01#8 s = .next (s.emit (.console (loByte (s.reg .x0)))) := rfl

/-- The other sub-ops write a flag or do nothing (44_sys.md R211, R213, R214). -/
theorem execSys_log_of_ne {n : Byte} (hn : n ≠ 0x01#8) {s t : State} (hx : execSys n s = .next t) :
    t.log = s.log := by
  simp only [execSys, if_neg hn] at hx
  split at hx
  · cases hx; rfl
  · split at hx <;> cases hx <;> rfl

/-- Every instruction but SYS 0x01 leaves at most a report in the log. -/
theorem exec_atMostReport {i : Instr} (hi : i ≠ .sys 0x01#8) {s t : State} (h : exec i s = .next t) :
    AtMostReport s t := by
  cases i with
  | nop => cases h; exact .inl rfl
  | sys n => exact .inl (execSys_log_of_ne (fun hn => hi (congrArg Instr.sys hn)) h)
  | push hn r => exact execPush_atMostReport (h := hn) h
  | pushi imm => exact .inl (push16_log (pushOutcome_next.1 h))
  | pop hn r => exact execPop_atMostReport h
  | add => cases h; exact .inr ⟨_, rfl⟩
  | addi imm hn r | andi imm hn r | ori imm hn r =>
    exact withRegOperand_atMostReport (fun _ => State.setReg_log ..) h
  | branch w | branchLessThan w | branchGreaterThan w | branchEqualTo w | branchNotEqualTo w =>
    exact .inl (branchTo_log h)
  | cmp a b => exact execCmp_atMostReport h
  | cmpi imm hn r =>
    exact withRegOperand_atMostReport (s := clearCmpFlags s) (fun _ => setCmpFlags_log ..) h

/-- A report goes to the diagnostic port, not to the console (R6). -/
theorem AtMostReport.consolePort {s t : State} (h : AtMostReport s t) : t.consolePort = s.consolePort := by
  rcases h with h | ⟨d, h⟩ <;> simp [State.consolePort, h, consoleByte]

theorem emit_console_consolePort (s : State) (c : Byte) :
    (s.emit (.console c)).consolePort = s.consolePort ++ [c] := by
  simp [State.consolePort, consoleByte]

theorem loByte_eq_ofNat (v : Word) : loByte v = BitVec.ofNat 8 (v.toNat % 256) := by
  apply BitVec.eq_of_toNat_eq
  simp [loByte]

/-- Settles O22: SYS 0x01 emits the low byte of x0, and every other instruction a report at most. -/
theorem consoleCarriesOnlySysPutCharacter : Obligations.ConsoleCarriesOnlySysPutCharacter := by
  intro i s t h
  by_cases hi : i = .sys 0x01#8
  · subst hi
    obtain rfl : s.emit (.console (loByte (s.reg .x0))) = t :=
      Host.Outcome.next.inj ((execSys_putCharacter s).symm.trans h)
    rw [if_pos rfl, emit_console_consolePort, loByte_eq_ofNat]
  · rw [if_neg hi, List.append_nil]
    exact (exec_atMostReport hi h).consolePort

end Sys2Proof.Machine
end

/-! The registers and the flags as cells, the invariant of a step and of a run, which instruction writes what, and that
no step reads the log (10_state.md). -/

section
namespace Sys2Proof.Machine

/-! ### Registers and flags as cells -/

theorem setReg_sameMemLogParams (s : State) (r : Reg) (v : Word) : SameMemLogParams s (s.setReg r v) :=
  ⟨fun a => State.setReg_byteAt s r v a, by simp, by simp, by simp⟩

theorem setFlag_sameMemLogParams (s : State) (f : Flag) (v : Bool) : SameMemLogParams s (s.setFlag f v) :=
  ⟨fun a => State.setFlag_byteAt s f v a, rfl, rfl, rfl⟩

/-- Settles O26. -/
theorem registersAreIndependentCells : Obligations.RegistersAreIndependentCells :=
  fun s r q v => ⟨State.reg_setReg s r v q, State.setReg_flags s r v, setReg_sameMemLogParams s r v⟩

/-- A flag is the binary digit of the flag byte at its position (10_state.md R36). -/
theorem State.flag_toNat (s : State) (f : Flag) : (s.flag f).toNat = s.flags.toNat / 2 ^ flagBit f % 2 := by
  rw [State.flag, ← BitVec.testBit_toNat, Nat.toNat_testBit]

/-- The four flags are the binary digits of the flag byte's low half. -/
theorem State.flags_mod_16 (s : State) :
    s.flags.toNat % 16 = (s.flag .halt).toNat + 2 * (s.flag .stepDebug).toNat + 4 * (s.flag .lessThan).toNat +
      8 * (s.flag .greaterThan).toNat := by
  simp only [State.flag_toNat, flagBit]
  omega

/-- Settles O27. -/
theorem flagsAreIndependentBits : Obligations.FlagsAreIndependentBits :=
  fun s f g v => ⟨State.flag_setFlag s g f v, State.setFlag_highBits s f v, fun r _ => State.setFlag_reg s f v r,
    setFlag_sameMemLogParams s f v, s.flags_mod_16⟩

/-! ### The invariant -/

/-- Settles O15: the memory of creation is canonical, and every flag is 0. -/
theorem resetMeetsTheInvariant : Obligations.ResetMeetsTheInvariant := ⟨State.reset_wf, by decide⟩

/-- The invariant speaks of memory and the flag byte alone. -/
theorem State.Inv.of_eq {s t : State} (hs : s.Inv) (hm : t.mem = s.mem) (hf : t.flags = s.flags) : t.Inv := by
  simpa only [State.Inv, State.flagsLegal, State.flag, hm, hf] using hs

theorem State.Inv.setReg {s : State} (hs : s.Inv) (r : Reg) (v : Word) : (s.setReg r v).Inv :=
  hs.of_eq (by simp) (by simp)

theorem State.Inv.emit {s : State} (hs : s.Inv) (e : Event) : (s.emit e).Inv := hs.of_eq rfl rfl

theorem State.Inv.putByte {s : State} (hs : s.Inv) {a : Nat} (ha : a < s.memSize) (b : Byte) : (s.putByte a b).Inv :=
  ⟨State.putByte_wf hs.1 ha b, hs.2⟩

/-- A flag that takes no part in a comparison may be written either way. -/
theorem State.Inv.setFlag {s : State} (hs : s.Inv) {f : Flag} (hl : f ≠ .lessThan) (hg : f ≠ .greaterThan) (v : Bool) :
    (s.setFlag f v).Inv := by
  obtain ⟨hm, hcmp, hhigh⟩ := hs
  refine ⟨hm, ?_, by rw [State.setFlag_highBits, hhigh]⟩
  rwa [State.flag_setFlag_other s v hl.symm, State.flag_setFlag_other s v hg.symm]

theorem State.Inv.clearCmpFlags {s : State} (hs : s.Inv) : (clearCmpFlags s).Inv :=
  ⟨hs.1, by simp, by rw [clearCmpFlags_highBits, hs.2.2]⟩

/-- A comparison sets at most one of the two flags it has cleared (42_alu.md R173). -/
theorem State.Inv.setCmpFlags {s : State} (hs : s.Inv) (c : CmpResult) :
    (Machine.setCmpFlags c (Machine.clearCmpFlags s)).Inv := by
  refine ⟨by simpa using hs.1, ?_, by rw [setCmpFlags_highBits, clearCmpFlags_highBits, hs.2.2]⟩
  simp only [setCmpFlags_clear_flag]
  cases c <;> decide

theorem State.Inv.push16 {v : Word} {s t : State} (hs : s.Inv) (h : push16 v s = .ok t) : t.Inv := by
  obtain ⟨h0, h1, rfl⟩ := push16_ok.1 h
  exact ((hs.putByte h0 _).putByte h1 _).setReg _ _

theorem State.Inv.pop16 {v : Word} {s t : State} (hs : s.Inv) (h : pop16 s = .ok (v, t)) : t.Inv := by
  obtain ⟨_, _, -, -, -, rfl⟩ := pop16_ok.1 h
  exact hs.setReg _ _

theorem State.Inv.effect {s t : State} (hs : s.Inv) (h : Effect s t) : t.Inv := by
  cases h with
  | same h => exact h ▸ hs
  | event e h => exact h ▸ hs.emit e
  | register r v h => exact h ▸ hs.setReg r v
  | pushed v h => exact hs.push16 h
  | popped r v u hp h => exact h ▸ (hs.pop16 hp).setReg r v
  | poppedNone idx v u hp h => exact h ▸ (hs.pop16 hp).emit _
  | compared c h => exact h ▸ hs.setCmpFlags c
  | comparedNone idx h => exact h ▸ hs.clearCmpFlags.emit _
  | jumped w h => exact h ▸ (hs.setReg .pc w).clearCmpFlags
  | halted h | toggled h => exact h ▸ hs.setFlag (by decide) (by decide) _

theorem State.Inv.fetchByte {s t : State} {b : Byte} (hs : s.Inv) (h : fetchByte s = .ok (b, t)) : t.Inv := by
  obtain ⟨-, rfl⟩ := fetchByte_ok.1 h
  exact hs.setReg _ _

theorem State.Inv.fetchBytes {n : Nat} {s t : State} {bs : List Byte} (hs : s.Inv)
    (h : fetchBytes n s = .ok (bs, t)) : t.Inv := by
  obtain ⟨-, rfl, -⟩ := fetchBytes_ok h
  exact hs.setReg _ _

/-- The trace, the fetches and the instruction's own effect each keep the invariant. -/
theorem State.Inv.stepInstr {s t : State} (hs : s.Inv) (h : stepInstr s = .next t) : t.Inv := by
  obtain ⟨op, s1, hop, hrest⟩ := stepInstr_next h
  have h0 : (traceStep s).Inv := hs.of_eq (traceStep_mem s) (traceStep_flags s)
  have h1 : s1.Inv := h0.fetchByte hop
  rcases hrest with ⟨-, rfl⟩ | ⟨k, bs, s2, -, hbs, hexec⟩
  · exact h1.emit _
  · exact (h1.fetchBytes hbs).effect (exec_effect hexec)

/-- Settles O16: a turn of the run loop that answers a next state is one `step()`. -/
theorem stepKeepsTheInvariant : Obligations.StepKeepsTheInvariant :=
  fun _ _ hs h => hs.stepInstr (step_next h).2

/-! ### The end of a run -/

theorem loopTest_halted {s : State} : loopTest s = some .halted ↔ s.flag .halt = true := by
  simp only [loopTest]
  split
  · simp [*]
  · split <;> simp [*]

/-- A `step()` that stops, stops with a MemFault (60_exceptions.md R233). -/
theorem stepInstr_fault {s : State} {f : Fault} (h : stepInstr s = .fault f) : ∃ a k log, f = .memFault a k log := by
  simp only [stepInstr] at h
  split at h
  · rename_i g hop
    cases h
    exact ⟨_, _, _, (fetchByte_error.1 hop).2⟩
  · split at h
    · cases h
    · split at h
      · rename_i g hbs
        cases h
        obtain ⟨a, hg, -⟩ := fetchBytes_error hbs
        exact ⟨a, _, _, hg⟩
      · obtain ⟨a, k, hf, -⟩ := exec_fault h
        exact ⟨a, k, _, hf⟩

/-- A turn of the run loop stops with Halted only where its test finds HALT set (40_fetch_decode.md R120). -/
theorem step_halted {s : State} (h : step s = .fault .halted) : s.flag .halt = true := by
  rcases hl : loopTest s with _ | f
  · obtain ⟨_, _, _, hf⟩ := stepInstr_fault (s := s) (f := .halted) (by simpa [step, hl] using h)
    cases hf
  · exact loopTest_halted.1 (by simpa [step, hl] using h)

theorem endOfRun_halted {s t : State} {f : Fault} : endOfRun s f = .halted t ↔ f = .halted ∧ s = t := by
  cases f <;> simp [endOfRun]

/-- What every turn of the run loop keeps holds of the state of a Halted run, and HALT is set there
(70_reset_and_hazards.md R266). -/
theorem run_halted_of_step_keeps {P : State → Prop} (hP : ∀ s t, P s → step s = .next t → P t) {n : Nat} {s t : State}
    (hs : P s) (h : run n s = .halted t) : P t ∧ t.flag .halt = true := by
  induction n generalizing s with
  | zero =>
    simp only [run] at h
    split at h
    · rename_i f hl
      obtain ⟨rfl, rfl⟩ := endOfRun_halted.1 h
      exact ⟨hs, loopTest_halted.1 hl⟩
    · cases h
  | succ n ih =>
    simp only [run] at h
    split at h
    · rename_i u hu
      exact ih (hP s u hs hu) h
    · rename_i f hf
      obtain ⟨rfl, rfl⟩ := endOfRun_halted.1 h
      exact ⟨hs, step_halted hf⟩
    · cases h

/-- Settles O17: the invariant is kept by every turn. -/
theorem haltedRunKeepsTheInvariant : Obligations.HaltedRunKeepsTheInvariant :=
  fun _ _ _ hs h => run_halted_of_step_keeps (P := State.Inv) stepKeepsTheInvariant hs h

/-! ### Which instruction writes which register and which flag -/

/-- The registers an instruction may write after its fetch (10_state.md R32). -/
def regsWritten : Instr → List Reg
  | .push _ _ | .pushi _ => [.sp]
  | .pop _ r => .sp :: (resolve r).toList
  | .addi _ _ r | .andi _ _ r | .ori _ _ r => (resolve r).toList
  | .branch _ | .branchLessThan _ | .branchGreaterThan _ | .branchEqualTo _ | .branchNotEqualTo _ => [.pc]
  | .nop | .sys _ | .add | .cmp _ _ | .cmpi _ _ _ => []

/-- The flags an instruction may write (10_state.md R36, R39). -/
def flagsWritten : Instr → List Flag
  | .sys n => if n = 0x00#8 then [.halt] else if n = 0x02#8 then [.stepDebug] else []
  | .cmp _ _ | .cmpi _ _ _ | .branch _ | .branchLessThan _ | .branchGreaterThan _ | .branchEqualTo _
  | .branchNotEqualTo _ => [.lessThan, .greaterThan]
  | .nop | .push _ _ | .pushi _ | .pop _ _ | .add | .addi _ _ _ | .andi _ _ _ | .ori _ _ _ => []

theorem mem_flagsWritten_sys {n : Byte} {f : Flag} :
    f ∈ flagsWritten (.sys n) ↔ (n = 0x00#8 ∧ f = .halt) ∨ (n = 0x02#8 ∧ f = .stepDebug) := by
  simp only [flagsWritten]
  split
  · simp [*]
  · split <;> simp [*]

/-- From `s` to `t` no register and no flag changes but those listed. -/
def WritesOnly (rs : List Reg) (fs : List Flag) (s t : State) : Prop :=
  SameRegsBut rs s t ∧ ∀ f, f ∉ fs → t.flag f = s.flag f

section WritesOnly
variable {rs : List Reg} {fs : List Flag} {s t u : State}

theorem WritesOnly.refl (s : State) : WritesOnly rs fs s s := ⟨fun _ _ => rfl, fun _ _ => rfl⟩

theorem WritesOnly.trans (h1 : WritesOnly rs fs s u) (h2 : WritesOnly rs fs u t) : WritesOnly rs fs s t :=
  ⟨fun r hr => (h2.1 r hr).trans (h1.1 r hr), fun f hf => (h2.2 f hf).trans (h1.2 f hf)⟩

theorem emit_writesOnly (s : State) (e : Event) : WritesOnly rs fs s (s.emit e) :=
  ⟨fun r _ => State.emit_reg s e r, fun f _ => State.emit_flag s e f⟩

theorem setReg_writesOnly {r : Reg} (hr : r ∈ rs) (s : State) (v : Word) : WritesOnly rs fs s (s.setReg r v) :=
  ⟨fun _ hq => State.reg_setReg_other s r v fun h => hq (h ▸ hr), fun f _ => State.setReg_flag s r v f⟩

theorem setFlag_writesOnly {f : Flag} (hf : f ∈ fs) (s : State) (v : Bool) : WritesOnly rs fs s (s.setFlag f v) :=
  ⟨fun r _ => State.setFlag_reg s f v r, fun _ hg => State.flag_setFlag_other s v fun h => hg (h ▸ hf)⟩

theorem putByte_writesOnly (s : State) (a : Nat) (b : Byte) : WritesOnly rs fs s (s.putByte a b) :=
  ⟨fun r _ => State.putByte_reg s a b r, fun f _ => State.putByte_flag s a b f⟩

theorem clearCmpFlags_writesOnly (s : State) : WritesOnly rs [.lessThan, .greaterThan] s (clearCmpFlags s) :=
  (setFlag_writesOnly (by simp) s false).trans (setFlag_writesOnly (by simp) _ false)

theorem setCmpFlags_writesOnly (c : CmpResult) (s : State) :
    WritesOnly rs [.lessThan, .greaterThan] s (setCmpFlags c s) := by
  cases c with
  | neg => exact setFlag_writesOnly (by simp) s true
  | zero => exact .refl s
  | pos => exact setFlag_writesOnly (by simp) s true

theorem push16_writesOnly {v : Word} (hsp : .sp ∈ rs) (h : push16 v s = .ok t) : WritesOnly rs fs s t := by
  obtain ⟨-, -, rfl⟩ := push16_ok.1 h
  exact ((putByte_writesOnly s _ _).trans (putByte_writesOnly _ _ _)).trans (setReg_writesOnly hsp _ _)

theorem pop16_writesOnly {v : Word} (hsp : .sp ∈ rs) (h : pop16 s = .ok (v, t)) : WritesOnly rs fs s t := by
  obtain ⟨_, _, -, -, -, rfl⟩ := pop16_ok.1 h
  exact setReg_writesOnly hsp s _

/-- A register operand is the one the low nibble of its byte names (40_fetch_decode.md R114). -/
theorem resolve_of_regOperand {p : Params} {h r : Nibble} {x : Reg} (hx : regOperand p h r = .ok (some x)) :
    resolve r = some x := by
  simp only [regOperand] at hx
  split at hx
  · simpa using hx
  · split at hx
    · simpa using hx
    · simp at hx
    · simp at hx

/-- The tail of a register-operand instruction writes what its action on the named register writes. -/
theorem withRegOperand_writesOnly {h r : Nibble} {act : Reg → State}
    (hact : ∀ x, resolve r = some x → WritesOnly rs fs s (act x)) (hx : withRegOperand h r s act = .next t) :
    WritesOnly rs fs s t := by
  rcases withRegOperand_next.1 hx with ⟨-, rfl⟩ | ⟨x, hr, rfl⟩
  · exact emit_writesOnly s _
  · exact hact x (resolve_of_regOperand hr)

/-- ADDI, ANDI and ORI write the register they name. -/
theorem withRegOperand_setReg_writesOnly {h r : Nibble} {v : Reg → Word}
    (hx : withRegOperand h r s (fun x => s.setReg x (v x)) = .next t) : WritesOnly (resolve r).toList fs s t :=
  withRegOperand_writesOnly (fun x hr => setReg_writesOnly (by simp [hr]) s (v x)) hx

theorem execSys_writesOnly {n : Byte} (hx : execSys n s = .next t) : WritesOnly rs (flagsWritten (.sys n)) s t := by
  simp only [execSys] at hx
  split at hx
  · cases hx
    exact setFlag_writesOnly (mem_flagsWritten_sys.2 (.inl ⟨‹_›, rfl⟩)) s true
  · split at hx
    · cases hx
      exact emit_writesOnly s _
    · split at hx <;> cases hx
      · exact setFlag_writesOnly (mem_flagsWritten_sys.2 (.inr ⟨‹_›, rfl⟩)) s _
      · exact .refl s

theorem execPush_writesOnly {h r : Nibble} (hx : execPush h r s = .next t) : WritesOnly [.sp] fs s t := by
  unfold execPush at hx
  split at hx
  · cases hx
    exact emit_writesOnly s _
  · exact push16_writesOnly (by simp) (pushOutcome_next.1 hx)

theorem execPop_writesOnly {h r : Nibble} (hx : execPop h r s = .next t) :
    WritesOnly (.sp :: (resolve r).toList) fs s t := by
  obtain ⟨v, u, hp, ⟨-, rfl⟩ | ⟨x, hr, rfl⟩⟩ := execPop_next hx
  · exact (pop16_writesOnly (by simp) hp).trans (emit_writesOnly u _)
  · exact (pop16_writesOnly (by simp) hp).trans (setReg_writesOnly (by simp [resolve_of_regOperand hr]) u v)

theorem branchTo_writesOnly {b : Bool} {w : Word} (hx : branchTo b w s = .next t) :
    WritesOnly [.pc] [.lessThan, .greaterThan] s t := by
  cases b <;> cases hx
  · exact .refl s
  · exact (setReg_writesOnly (by simp) s w).trans (clearCmpFlags_writesOnly _)

theorem execCmp_writesOnly {a b : Nibble} (hx : execCmp a b s = .next t) :
    WritesOnly rs [.lessThan, .greaterThan] s t := by
  unfold execCmp at hx
  split at hx <;> cases hx
  · exact (clearCmpFlags_writesOnly s).trans (emit_writesOnly _ _)
  · exact (clearCmpFlags_writesOnly s).trans (emit_writesOnly _ _)
  · exact (clearCmpFlags_writesOnly s).trans (setCmpFlags_writesOnly _ _)

/-- What an instruction's meaning writes is what `regsWritten` and `flagsWritten` list. -/
theorem exec_writesOnly {i : Instr} (h : exec i s = .next t) : WritesOnly (regsWritten i) (flagsWritten i) s t := by
  cases i with
  | nop => cases h; exact .refl s
  | sys n => exact execSys_writesOnly h
  | push hn r => exact execPush_writesOnly (h := hn) h
  | pushi imm => exact push16_writesOnly (by simp [regsWritten]) (pushOutcome_next.1 h)
  | pop hn r => exact execPop_writesOnly h
  | add => cases h; exact emit_writesOnly s _
  | addi imm hn r | andi imm hn r | ori imm hn r => exact withRegOperand_setReg_writesOnly h
  | branch w | branchLessThan w | branchGreaterThan w | branchEqualTo w | branchNotEqualTo w =>
    exact branchTo_writesOnly h
  | cmp a b => exact execCmp_writesOnly h
  | cmpi imm hn r =>
    exact (clearCmpFlags_writesOnly s).trans (withRegOperand_writesOnly (fun _ _ => setCmpFlags_writesOnly _ _) h)

end WritesOnly

/-- Settles O21: a register whose value changed is listed in `regsWritten`. -/
theorem registerWriters : Obligations.RegisterWriters := by
  intro i s t q h hne
  have hq : q ∈ regsWritten i := by
    by_contra hq
    exact hne ((exec_writesOnly h).1 q hq)
  cases i with
  | push | pushi | branch | branchLessThan | branchGreaterThan | branchEqualTo | branchNotEqualTo =>
    exact List.mem_singleton.1 hq
  | pop | addi | andi | ori => simpa [regsWritten] using hq
  | nop | sys | add | cmp | cmpi => exact absurd hq List.not_mem_nil

/-- HALT is written by SYS 0x00 alone. -/
theorem halt_mem_flagsWritten {i : Instr} : .halt ∈ flagsWritten i ↔ i = .sys 0x00#8 := by
  cases i with
  | sys n => simp [mem_flagsWritten_sys]
  | _ => simp [flagsWritten]

/-- STEP_DEBUG is written by SYS 0x02 alone. -/
theorem stepDebug_mem_flagsWritten {i : Instr} : .stepDebug ∈ flagsWritten i ↔ i = .sys 0x02#8 := by
  cases i with
  | sys n => simp [mem_flagsWritten_sys]
  | _ => simp [flagsWritten]

theorem exec_halt_flag {i : Instr} {s t : State} (h : exec i s = .next t) :
    t.flag .halt = if i = .sys 0x00#8 then true else s.flag .halt := by
  split
  · rename_i hi
    subst hi
    cases h
    exact State.flag_setFlag_same s .halt true
  · rename_i hi
    exact (exec_writesOnly h).2 _ (mt halt_mem_flagsWritten.1 hi)

theorem exec_stepDebug_flag {i : Instr} {s t : State} (h : exec i s = .next t) :
    t.flag .stepDebug = if i = .sys 0x02#8 then !s.flag .stepDebug else s.flag .stepDebug := by
  split
  · rename_i hi
    subst hi
    cases h
    exact State.flag_setFlag_same s .stepDebug _
  · rename_i hi
    exact (exec_writesOnly h).2 _ (mt stepDebug_mem_flagsWritten.1 hi)

/-- Settles O20: HALT and STEP_DEBUG each have one writer, and no comparison flag is listed for an instruction that is
neither a comparison nor a branch. -/
theorem flagWriters : Obligations.FlagWriters := by
  intro i s t h
  refine ⟨exec_halt_flag h, exec_stepDebug_flag h, fun hi => ?_⟩
  have hno : .lessThan ∉ flagsWritten i ∧ .greaterThan ∉ flagsWritten i := by
    cases i with
    | sys n => simp [mem_flagsWritten_sys]
    | cmp | cmpi | branch | branchLessThan | branchGreaterThan | branchEqualTo | branchNotEqualTo => exact hi.elim
    | nop | push | pushi | pop | add | addi | andi | ori => simp [flagsWritten]
  exact ⟨(exec_writesOnly h).2 _ hno.1, (exec_writesOnly h).2 _ hno.2⟩

/-! ### The log is never read

Every operation commutes with putting earlier events in front of the log, so a step from any log is the step from the
empty log with that log put in front. -/

/-- The state with earlier events in front of its log. -/
def State.prependLog (l : List Event) (s : State) : State := { s with log := l ++ s.log }

/-- The fault with earlier events in front of the log it carries. -/
def Fault.prependLog (l : List Event) : Fault → Fault
  | .memFault a k log => .memFault a k (l ++ log)
  | .halted => .halted
  | .pcOutOfRange => .pcOutOfRange

/-- The result of an operation with earlier events in front of the log of its fault; `onOk` puts them into what it
answers otherwise. -/
def resultPrependLog {α : Type} (l : List Event) (onOk : α → α) : Except Fault α → Except Fault α
  | .ok x => .ok (onOk x)
  | .error f => .error (f.prependLog l)

/-- The outcome with earlier events in front of the log of its state, or of its fault. -/
def outcomePrependLog (l : List Event) : Host.Outcome State Fault Refusal → Host.Outcome State Fault Refusal
  | .next s => .next (s.prependLog l)
  | .fault f => .fault (f.prependLog l)
  | .refused r => .refused r

section PrependLog
variable (l : List Event) (s : State)

@[simp] theorem State.prependLog_regs : (s.prependLog l).regs = s.regs := rfl
@[simp] theorem State.prependLog_flags : (s.prependLog l).flags = s.flags := rfl
@[simp] theorem State.prependLog_mem : (s.prependLog l).mem = s.mem := rfl
@[simp] theorem State.prependLog_log : (s.prependLog l).log = l ++ s.log := rfl
@[simp] theorem State.prependLog_params : (s.prependLog l).params = s.params := rfl
@[simp] theorem State.prependLog_memSize : (s.prependLog l).memSize = s.memSize := rfl
@[simp] theorem State.prependLog_byteAt (a : Nat) : (s.prependLog l).byteAt a = s.byteAt a := rfl
@[simp] theorem State.prependLog_flag (f : Flag) : (s.prependLog l).flag f = s.flag f := rfl
@[simp] theorem State.prependLog_reg (r : Reg) : (s.prependLog l).reg r = s.reg r := by cases r <;> rfl
@[simp] theorem State.prependLog_equal : (s.prependLog l).equal = s.equal := rfl
@[simp] theorem State.prependLog_notEqual : (s.prependLog l).notEqual = s.notEqual := rfl
@[simp] theorem fetchAddr_prependLog : fetchAddr (s.prependLog l) = fetchAddr s := rfl
@[simp] theorem loopTest_prependLog : loopTest (s.prependLog l) = loopTest s := rfl

@[simp] theorem State.setReg_prependLog (r : Reg) (v : Word) :
    (s.prependLog l).setReg r v = (s.setReg r v).prependLog l := by cases r <;> rfl

@[simp] theorem State.setFlag_prependLog (f : Flag) (v : Bool) :
    (s.prependLog l).setFlag f v = (s.setFlag f v).prependLog l := rfl

@[simp] theorem State.putByte_prependLog (a : Nat) (b : Byte) :
    (s.prependLog l).putByte a b = (s.putByte a b).prependLog l := rfl

@[simp] theorem State.emit_prependLog (e : Event) : (s.prependLog l).emit e = (s.emit e).prependLog l := by
  simp [State.emit, State.prependLog]

@[simp] theorem clearCmpFlags_prependLog : clearCmpFlags (s.prependLog l) = (clearCmpFlags s).prependLog l := rfl

@[simp] theorem setCmpFlags_prependLog (c : CmpResult) :
    setCmpFlags c (s.prependLog l) = (setCmpFlags c s).prependLog l := by cases c <;> rfl

@[simp] theorem reportInvalidRegister_prependLog (i : Nibble) :
    reportInvalidRegister i (s.prependLog l) = (reportInvalidRegister i s).prependLog l := State.emit_prependLog ..

@[simp] theorem reportUnknownOpcode_prependLog (op : Byte) :
    reportUnknownOpcode op (s.prependLog l) = (reportUnknownOpcode op s).prependLog l := State.emit_prependLog ..

@[simp] theorem traceStep_prependLog : traceStep (s.prependLog l) = (traceStep s).prependLog l := by
  by_cases h : s.flags = stepDebugOnly <;> simp [traceStep, h]

theorem memRead_prependLog (k : AccessKind) (a : Nat) :
    memRead k (s.prependLog l) a = resultPrependLog l id (memRead k s a) := by
  simp only [memRead, State.prependLog_byteAt]
  cases s.byteAt a <;> rfl

theorem memWrite_prependLog (a : Nat) (b : Byte) :
    memWrite (s.prependLog l) a b = resultPrependLog l (State.prependLog l) (memWrite s a b) := by
  by_cases h : a < s.memSize <;> simp [memWrite, h, resultPrependLog, Fault.prependLog]

theorem fetchByte_prependLog :
    fetchByte (s.prependLog l) = resultPrependLog l (Prod.map id (State.prependLog l)) (fetchByte s) := by
  simp only [fetchByte, fetchAddr_prependLog, memRead_prependLog]
  rcases memRead .fetch s (fetchAddr s) with f | b <;> rfl

theorem fetchBytes_prependLog (n : Nat) :
    fetchBytes n (s.prependLog l) = resultPrependLog l (Prod.map id (State.prependLog l)) (fetchBytes n s) := by
  induction n generalizing s with
  | zero => rfl
  | succ n ih =>
    simp only [fetchBytes, fetchByte_prependLog]
    rcases fetchByte s with f | ⟨b, s1⟩
    · rfl
    · simp only [resultPrependLog, Prod.map_apply, ih]
      rcases fetchBytes n s1 with f | ⟨bs, s2⟩ <;> rfl

theorem pop16_prependLog :
    pop16 (s.prependLog l) = resultPrependLog l (Prod.map id (State.prependLog l)) (pop16 s) := by
  simp only [pop16, State.prependLog_reg, State.setReg_prependLog, memRead_prependLog]
  rcases memRead .read (s.setReg .sp (s.reg .sp - 1)) _ with f | lo
  · rfl
  · simp only [resultPrependLog]
    generalize memRead .read _ _ = r
    rcases r with f | hi <;> rfl

theorem push16_prependLog (v : Word) :
    push16 v (s.prependLog l) = resultPrependLog l (State.prependLog l) (push16 v s) := by
  simp only [push16, State.prependLog_reg, memWrite_prependLog]
  rcases memWrite s (s.reg .sp).toNat (hiByte v) with f | s1
  · rfl
  · simp only [resultPrependLog, State.prependLog_reg, State.setReg_prependLog, memWrite_prependLog]
    rcases memWrite (s1.setReg .sp (s1.reg .sp + 1)) _ (loByte v) with f | s3
    · rfl
    · simp

theorem pushOutcome_prependLog (v : Word) :
    pushOutcome v (s.prependLog l) = outcomePrependLog l (pushOutcome v s) := by
  simp only [pushOutcome, push16_prependLog]
  rcases push16 v s with f | t <;> rfl

/-- The tail of a register-operand instruction commutes where its action does. -/
theorem withRegOperand_prependLog {h r : Nibble} {act act' : Reg → State} (hact : ∀ x, act' x = (act x).prependLog l) :
    withRegOperand h r (s.prependLog l) act' = outcomePrependLog l (withRegOperand h r s act) := by
  simp only [withRegOperand, State.prependLog_params]
  rcases regOperand s.params h r with e | (_ | x) <;> simp [outcomePrependLog, hact]

theorem branchTo_prependLog (b : Bool) (w : Word) :
    branchTo b w (s.prependLog l) = outcomePrependLog l (branchTo b w s) := by
  cases b <;> simp [branchTo, outcomePrependLog]

theorem execSys_prependLog (n : Byte) : execSys n (s.prependLog l) = outcomePrependLog l (execSys n s) := by
  simp only [execSys]
  split
  · rfl
  · split
    · simp [outcomePrependLog]
    · split <;> rfl

theorem execPush_prependLog (h r : Nibble) :
    execPush h r (s.prependLog l) = outcomePrependLog l (execPush h r s) := by
  rcases hr : resolve r with _ | x
  · simp [execPush, hr, outcomePrependLog]
  · simp [execPush, hr, pushOutcome_prependLog]

theorem execPop_prependLog (h r : Nibble) : execPop h r (s.prependLog l) = outcomePrependLog l (execPop h r s) := by
  simp only [execPop, pop16_prependLog]
  rcases pop16 s with f | ⟨v, u⟩
  · rfl
  · exact withRegOperand_prependLog l u fun x => State.setReg_prependLog l u x v

theorem execCmp_prependLog (a b : Nibble) : execCmp a b (s.prependLog l) = outcomePrependLog l (execCmp a b s) := by
  rcases ha : resolve a with _ | x
  · simp [execCmp, ha, outcomePrependLog]
  · rcases hb : resolve b with _ | y <;> simp [execCmp, ha, hb, outcomePrependLog]

theorem exec_prependLog (i : Instr) : exec i (s.prependLog l) = outcomePrependLog l (exec i s) := by
  cases i with
  | nop => rfl
  | sys n => exact execSys_prependLog l s n
  | push h r => exact execPush_prependLog l s h r
  | pushi imm => exact pushOutcome_prependLog l s imm
  | pop h r => exact execPop_prependLog l s h r
  | add => simp [exec, execAdd, outcomePrependLog]
  | addi imm h r | andi imm h r | ori imm h r => exact withRegOperand_prependLog l s fun x => by simp
  | branch w | branchLessThan w | branchGreaterThan w | branchEqualTo w | branchNotEqualTo w =>
    exact branchTo_prependLog l s _ w
  | cmp a b => exact execCmp_prependLog l s a b
  | cmpi imm h r => exact withRegOperand_prependLog l (clearCmpFlags s) fun x => by simp

theorem stepInstr_prependLog : stepInstr (s.prependLog l) = outcomePrependLog l (stepInstr s) := by
  simp only [stepInstr, traceStep_prependLog, fetchByte_prependLog]
  rcases fetchByte (traceStep s) with f | ⟨op, s1⟩
  · rfl
  · simp only [resultPrependLog, Prod.map_apply, id_eq, State.prependLog_params, fetchBytes_prependLog]
    rcases decodeOpcode s1.params.opcodeMap op with _ | k
    · simp [outcomePrependLog]
    · dsimp only
      rcases fetchBytes (operandLength k) s1 with f | ⟨bs, s2⟩
      · rfl
      · exact exec_prependLog l s2 _

/-- The loop test's own stops carry no log. -/
theorem Fault.prependLog_of_loopTest {f : Fault} (h : loopTest s = some f) : f.prependLog l = f := by
  simp only [loopTest] at h
  split at h
  · cases h; rfl
  · split at h <;> cases h
    rfl

/-- The commuting square of a turn of the run loop. -/
theorem step_prependLog : step (s.prependLog l) = outcomePrependLog l (step s) := by
  simp only [step, loopTest_prependLog]
  rcases hl : loopTest s with _ | f
  · exact stepInstr_prependLog l s
  · exact congrArg Host.Outcome.fault (Fault.prependLog_of_loopTest l s hl).symm

/-- A step from any log is the step from the empty log with that log put in front. -/
theorem step_withLog : step { s with log := l } = outcomePrependLog l (step { s with log := [] }) := by
  rw [← step_prependLog, State.prependLog]
  simp

end PrependLog

/-- Settles O23: both steps are the step from the empty log, with `s.log` or `l` put in front. -/
theorem logIsNeverRead : Obligations.LogIsNeverRead := by
  intro s l
  rw [step_withLog l s, show step s = _ from step_withLog s.log s]
  cases step { s with log := [] } with
  | next t =>
    refine ⟨fun u hu => ?_, nofun, nofun, nofun, nofun⟩
    cases hu
    exact ⟨t.log, rfl, rfl⟩
  | fault f =>
    cases f with
    | memFault a k es =>
      refine ⟨nofun, fun _ _ _ h => ?_, nofun, nofun, nofun⟩
      cases h
      exact ⟨es, rfl, rfl⟩
    | halted => exact ⟨nofun, nofun, fun h => h, nofun, nofun⟩
    | pcOutOfRange => exact ⟨nofun, nofun, nofun, fun h => h, nofun⟩
  | refused r => exact ⟨nofun, nofun, nofun, nofun, fun _ h => h⟩

end Sys2Proof.Machine
end

/-! Memory and its owner: which instruction writes it, where an access of it faults, that a pushed byte is code, and
that the host has no move on a running machine (20_memory.md R62, R66, R73, R75). -/

section
namespace Sys2Proof.Machine

/-! ### The faults of a step -/

/-- The log the opcode fetch finds is the log with the step's trace (40_fetch_decode.md R118). -/
@[simp] theorem traceStep_log (s : State) : (traceStep s).log = logAfterTrace s := by
  by_cases h : s.flags = 0x02#8 <;> simp [traceStep, logAfterTrace, stepDebugOnly, flagMask, flagBit, h]

/-- Where a `step()` that stops has stopped: at its opcode fetch, at an operand fetch, or in the instruction's own
meaning (40_fetch_decode.md R116). -/
theorem stepInstr_fault_cases {s : State} {f : Fault} (h : stepInstr s = .fault f) :
    fetchByte (traceStep s) = .error f ∨
      ∃ op s1 k, fetchByte (traceStep s) = .ok (op, s1) ∧
        (fetchBytes (operandLength k) s1 = .error f ∨
          ∃ bs s2, fetchBytes (operandLength k) s1 = .ok (bs, s2) ∧ exec (decodeOperands k bs) s2 = .fault f) := by
  rcases hop : fetchByte (traceStep s) with g | ⟨op, s1⟩
  · exact .inl (by simpa [stepInstr, hop] using h)
  · refine .inr ⟨op, s1, ?_⟩
    rcases hd : decodeOpcode s1.params.opcodeMap op with _ | k
    · simp [stepInstr, hop, hd] at h
    · refine ⟨k, rfl, ?_⟩
      rcases hbs : fetchBytes (operandLength k) s1 with g | ⟨bs, s2⟩
      · exact .inl (by simpa [stepInstr, hop, hd, hbs] using h)
      · exact .inr ⟨bs, s2, rfl, by simpa [stepInstr, hop, hd, hbs] using h⟩

/-- Settles O25: fetching emits no event and keeps the size of memory, so each of the three places where a step may
fault finds the log with the trace. -/
theorem faultsNameAnAddressOutOfRange : Obligations.FaultsNameAnAddressOutOfRange := by
  intro s f h
  rcases stepInstr_fault_cases h with hop | ⟨op, s1, k, hop, hrest⟩
  · obtain ⟨hnone, rfl⟩ := fetchByte_error.1 hop
    exact ⟨_, _, by rw [traceStep_log], by simpa using State.byteAt_eq_none.1 hnone⟩
  · obtain ⟨-, rfl⟩ := fetchByte_ok.1 hop
    rcases hrest with hbs | ⟨bs, s2, hbs, hexec⟩
    · obtain ⟨a, rfl, ha⟩ := fetchBytes_error hbs
      exact ⟨a, .fetch, by simp, by simpa using ha⟩
    · obtain ⟨-, rfl, -⟩ := fetchBytes_ok hbs
      obtain ⟨a, kind, rfl, ha⟩ := exec_fault hexec
      exact ⟨a, kind, by simp, by simpa using ha⟩

/-! ### Which instruction writes memory -/

theorem sameMemory_of_mem_eq {s t : State} (h : t.mem = s.mem) : SameMemory s t := by
  intro a
  rw [State.byteAt, State.byteAt, State.memSize, State.memSize, h]

theorem execSys_mem {n : Byte} {s t : State} (hx : execSys n s = .next t) : t.mem = s.mem := by
  simp only [execSys] at hx
  split at hx
  · cases hx; rfl
  · split at hx
    · cases hx; rfl
    · split at hx <;> cases hx <;> rfl

/-- A pop reads memory and writes sp alone (41_stack.md R141). -/
theorem pop16_mem {v : Word} {s t : State} (h : pop16 s = .ok (v, t)) : t.mem = s.mem := by
  obtain ⟨_, _, -, -, -, rfl⟩ := pop16_ok.1 h
  exact State.setReg_mem ..

theorem execPop_mem {h r : Nibble} {s t : State} (hx : execPop h r s = .next t) : t.mem = s.mem := by
  obtain ⟨v, u, hp, ⟨-, rfl⟩ | ⟨x, -, rfl⟩⟩ := execPop_next hx
  · exact (State.emit_mem u _).trans (pop16_mem hp)
  · rw [State.setReg_mem, pop16_mem hp]

theorem branchTo_mem {b : Bool} {w : Word} {s t : State} (hx : branchTo b w s = .next t) : t.mem = s.mem := by
  cases b <;> cases hx <;> simp

theorem execCmp_mem {a b : Nibble} {s t : State} (hx : execCmp a b s = .next t) : t.mem = s.mem := by
  unfold execCmp at hx
  split at hx <;> cases hx
  · rfl
  · rfl
  · simp

/-- An action that keeps memory keeps it on a register operand too: the report of an invalid one is an event
(40_fetch_decode.md R115). -/
theorem withRegOperand_mem {h r : Nibble} {s t : State} {act : Reg → State} (hact : ∀ x, (act x).mem = s.mem)
    (hx : withRegOperand h r s act = .next t) : t.mem = s.mem := by
  rcases withRegOperand_next.1 hx with ⟨-, rfl⟩ | ⟨x, -, rfl⟩
  · rfl
  · exact hact x

/-- Settles O19: every instruction but the two that push keeps the memory field itself. -/
theorem onlyPushesWriteMemory : Obligations.OnlyPushesWriteMemory := by
  intro i s t h hpush hpushi
  apply sameMemory_of_mem_eq
  cases i with
  | push hn r => exact absurd rfl (hpush hn r)
  | pushi imm => exact absurd rfl (hpushi imm)
  | nop | add => cases h; rfl
  | sys n => exact execSys_mem h
  | pop hn r => exact execPop_mem h
  | addi imm hn r | andi imm hn r | ori imm hn r => exact withRegOperand_mem (fun _ => State.setReg_mem ..) h
  | branch w | branchLessThan w | branchGreaterThan w | branchEqualTo w | branchNotEqualTo w =>
    exact branchTo_mem h
  | cmp a b => exact execCmp_mem h
  | cmpi imm hn r => exact withRegOperand_mem (s := clearCmpFlags s) (fun _ => setCmpFlags_mem ..) h

/-! ### A pushed byte as code -/

theorem hiByte_eq_ofNat (v : Word) : hiByte v = BitVec.ofNat 8 (v.toNat / 256) := by
  apply BitVec.eq_of_toNat_eq
  simp [hiByte, Nat.shiftRight_eq_div_pow]

/-- The two addresses of a push are never one, at the wrap of sp either. -/
theorem toNat_ne_toNat_add_one (w : Word) : w.toNat ≠ (w + 1).toNat := by
  bv_omega

/-- Memory after a push: the low byte at sp + 1, the high byte at sp, the old bytes elsewhere (41_stack.md R140). -/
theorem push16_byteAt {v : Word} {s t : State} (hwf : s.mem.wf) (h : push16 v s = .ok t) (a : Nat) :
    t.byteAt a =
      if a = (s.reg .sp + 1).toNat then some (loByte v)
      else if a = (s.reg .sp).toNat then some (hiByte v) else s.byteAt a := by
  obtain ⟨h0, h1, rfl⟩ := push16_ok.1 h
  rw [State.setReg_byteAt, State.byteAt_putByte (State.putByte_wf hwf h0 _), State.byteAt_putByte hwf,
    State.putByte_memSize]
  by_cases ha : a < s.memSize
  · simp only [if_pos ha]
  · rw [if_neg ha, if_neg (by omega), if_neg (by omega), State.byteAt_eq_none.2 (Nat.le_of_not_lt ha)]

/-- A fetch answers the byte that stands at its address, whatever wrote it (20_memory.md R73). -/
theorem fetchByte_of_byteAt {s : State} {a : Nat} {b : Byte} (ha : fetchAddr s = a) (hb : s.byteAt a = some b) :
    ∃ u, fetchByte s = .ok (b, u) :=
  ⟨_, fetchByte_ok.2 ⟨ha ▸ hb, rfl⟩⟩

/-- Settles O41: both bytes of a push stand in the memory the fetch reads. -/
theorem pushedByteIsFetchedNext : Obligations.PushedByteIsFetchedNext := by
  intro v s t hwf h
  refine ⟨fun ha => fetchByte_of_byteAt ha ?_, fun ha => fetchByte_of_byteAt ha ?_⟩
  · rw [push16_byteAt hwf h, if_neg (toNat_ne_toNat_add_one _), if_pos rfl, hiByte_eq_ofNat]
  · rw [push16_byteAt hwf h, if_pos rfl, loByte_eq_ofNat]

/-! ### The host and a running machine -/

section Session
variable {c : Session}

theorem hostMove_running (hc : c.phase = .running) (mv : HostMove) : hostMove mv c = .refused .hostAccessDuringRun := by
  simp [hostMove, hc]

theorem hostMove_startRun_ended {f : Fault} (hc : c.phase = .ended f) :
    hostMove .startRun c = .refused .hostOutsideContract := by
  simp [hostMove, hc, endedMove]

theorem machineMove_of_step_next {t : State} (hc : c.phase = .running) (h : step c.machine = .next t) :
    machineMove c = .next { phase := .running, machine := t, seed := c.seed } := by
  simp [machineMove, hc, h]

theorem machineMove_of_step_fault {f : Fault} (hc : c.phase = .running) (h : step c.machine = .fault f) :
    machineMove c = .next { phase := .ended f, machine := endedMachine c.seed c.machine f, seed := c.seed } := by
  simp [machineMove, hc, h]

theorem machineMove_not_running (hc : c.phase ≠ .running) : machineMove c = .refused .hostOutsideContract := by
  unfold machineMove
  split
  · exact absurd ‹_› hc
  all_goals rfl

end Session

/-- Settles O34: the rules of the two moves above, one for each phase and answer of the step. -/
theorem hostHasNoMoveDuringARun : Obligations.HostHasNoMoveDuringARun := by
  intro c
  refine ⟨hostMove_running, ?_, ?_, fun hc t => machineMove_of_step_next hc, machineMove_not_running,
    fun f => hostMove_startRun_ended⟩
  · rintro hc f (rfl | rfl) h <;> exact machineMove_of_step_fault hc h
  · exact fun hc a k log h => ⟨_, machineMove_of_step_fault hc h, rfl⟩

end Sys2Proof.Machine
end

/-! Encoding and decoding are inverse, the length of an instruction, and the bytes of an assembly line
(30_encoding.md R81, R85, R87, R94). -/

section
namespace Sys2Proof

/-! ### Operand bytes -/

/-- The encoder writes as many operand bytes as the mnemonic takes (R85). -/
@[simp] theorem encodeOperands_length (i : Instr) : (encodeOperands i).length = operandLength i.mnemonic := by
  cases i <;> rfl

@[simp] theorem encode_length (m : OpcodeMap) (i : Instr) : (encode m i).length = instrLength i.mnemonic := by
  simp [encode, instrLength, Nat.add_comm]

@[simp] theorem decodeOperands_mnemonic (k : Mnemonic) (bs : List Byte) : (decodeOperands k bs).mnemonic = k := by
  cases k <;> rfl

@[simp] theorem decodeOperands_encodeOperands (i : Instr) : decodeOperands i.mnemonic (encodeOperands i) = i := by
  cases i <;> simp [Instr.mnemonic, encodeOperands, decodeOperands, operandWord, operandByte]

/-- No operand bit is dropped: the right number of operand bytes is what the instruction read from them encodes to. -/
theorem encodeOperands_decodeOperands {k : Mnemonic} {bs : List Byte} (h : bs.length = operandLength k) :
    encodeOperands (decodeOperands k bs) = bs := by
  cases k with
  | nop | add => exact (List.length_eq_zero_iff.1 h).symm
  | sys | push | pop | cmp =>
    obtain ⟨a, rfl⟩ := List.length_eq_one_iff.1 h
    simp [decodeOperands, encodeOperands, operandByte]
  | pushi | branch | branchLessThan | branchGreaterThan | branchEqualTo | branchNotEqualTo =>
    obtain ⟨a, b, rfl⟩ := List.length_eq_two.1 h
    simp [decodeOperands, encodeOperands, operandWord, operandByte]
  | addi | cmpi | andi | ori =>
    obtain ⟨a, b, c, rfl⟩ := List.length_eq_three.1 h
    simp [decodeOperands, encodeOperands, operandWord, operandByte]

/-! ### Decoding and encoding -/

/-- What decoding accepts, in full: the encoding of an instruction whose opcode byte the lookup answers with its own
mnemonic, and anything after it (R81, R87). -/
theorem decode_eq_ok {m : OpcodeMap} {bs rest : List Byte} {i : Instr} :
    decode m bs = .ok (i, rest) ↔
      decodeOpcode m (opcodeByte m i.mnemonic) = some i.mnemonic ∧ bs = encode m i ++ rest := by
  constructor
  · intro h
    cases bs with
    | nil => cases h
    | cons op tail =>
      cases hop : decodeOpcode m op with
      | none => simp [decode, hop] at h
      | some k =>
        simp only [decode, hop] at h
        split at h
        · cases h
        next hlen =>
          cases h
          have htake : (tail.take (operandLength k)).length = operandLength k := List.length_take_of_le (by omega)
          simp [encode, decodeOpcode_sound hop, hop, encodeOperands_decodeOperands htake]
  · rintro ⟨hop, rfl⟩
    simp [encode, decode, hop, List.take_left', List.drop_left']

/-- Settles O1: under a well-formed map the lookup answers every mnemonic's own byte with that mnemonic. -/
theorem decodeEncodeAgree : Obligations.DecodeEncodeAgree :=
  fun _ hm i _ => decode_eq_ok.2 ⟨decodeOpcode_opcodeByte hm i.mnemonic, rfl⟩

/-- Settles O2: one half of what decoding accepts. -/
theorem decodedBytesAreTheEncoding : Obligations.DecodedBytesAreTheEncoding :=
  fun _ _ _ _ h => (decode_eq_ok.1 h).2

/-! ### Length -/

/-- The opcode byte alone gives the mnemonic, and with it how many bytes are consumed (R85, R112). -/
theorem decode_cons_ok {m : OpcodeMap} {op : Byte} {bs rest : List Byte} {i : Instr}
    (h : decode m (op :: bs) = .ok (i, rest)) :
    decodeOpcode m op = some i.mnemonic ∧ bs.length = operandLength i.mnemonic + rest.length := by
  obtain ⟨hop, hbs⟩ := decode_eq_ok.1 h
  obtain ⟨rfl, rfl⟩ := List.cons.inj hbs
  exact ⟨hop, by simp⟩

/-- Settles O3: one opcode byte has one mnemonic, so two words that begin with it consume the same number of bytes. -/
theorem lengthIsFixedByTheOpcode : Obligations.LengthIsFixedByTheOpcode := by
  intro m op bs bs' i i' rest rest' h h'
  obtain ⟨hop, hlen⟩ := decode_cons_ok h
  obtain ⟨hop', hlen'⟩ := decode_cons_ok h'
  have hk : i.mnemonic = i'.mnemonic := Option.some.inj (hop.symm.trans hop')
  refine ⟨by rw [hlen, hlen', hk]; omega, ?_⟩
  rw [List.length_cons, hlen]
  cases i.mnemonic <;> simp only [operandLength] <;> omega

/-! ### Example words -/

/-- Settles O4: the decoder run on each word. -/
theorem exampleWordsDecode : Obligations.ExampleWordsDecode := ⟨rfl, rfl, rfl, rfl, rfl, rfl⟩

end Sys2Proof

namespace Sys2Proof.Machine

/-! ### The assembler -/

section Line
variable {m : OpcodeMap} {labels : List (Nat × Word)}

/-- The assembler's index of a register is the table's (10_state.md R31). -/
@[simp] theorem regIndex_eq_tableIndex (r : Reg) : regIndex r = tableIndex r := by cases r <;> rfl

theorem asmValue_eq_some {v : AsmValue} {w : Word} : asmValue labels v = some w ↔ AsmValueIs labels v w := by
  cases v with
  | num n => simp [asmValue, AsmValueIs, eq_comm]
  | label l => rfl

/-- A line that stands for an instruction has that instruction's bytes (R94). -/
theorem asmBytes_of_asmLineIs {line : AsmLine} {i : Instr} (h : AsmLineIs labels line i) :
    asmBytes m labels line = some (encode m i) := by
  cases line with
  | nop | sys | push | pop | cmp =>
    cases h
    simp [asmBytes]
  | pushi | addi | cmpi | andi | ori | branch | branchLessThan | branchGreaterThan | branchEqualTo | branchNotEqualTo =>
    obtain ⟨w, hw, rfl⟩ := h
    simp [asmBytes, asmValue_eq_some.2 hw]
  | byte | label => exact h.elim

/-- A line that stands for an instruction has that instruction's length (R85, R94). -/
theorem instrLength_of_asmLineIs {line : AsmLine} {i : Instr} (h : AsmLineIs labels line i) :
    instrLength i.mnemonic = asmLength line := by
  cases line with
  | nop | sys | push | pop | cmp =>
    cases h
    rfl
  | pushi | addi | cmpi | andi | ori | branch | branchLessThan | branchGreaterThan | branchEqualTo | branchNotEqualTo =>
    obtain ⟨w, -, rfl⟩ := h
    rfl
  | byte | label => exact h.elim

end Line

/-- Settles O59: the line's bytes are the encoding of its instruction, which O1 decodes. -/
theorem assembledLineDecodes : Obligations.AssembledLineDecodes := by
  refine fun m labels => ⟨fun line i h => ⟨encode m i, asmBytes_of_asmLineIs h, fun hm => ?_, ?_⟩, fun _ => rfl,
    fun _ => rfl, fun line hnone i h => ?_⟩
  · simpa using decodeEncodeAgree m hm i []
  · rw [encode_length, instrLength_of_asmLineIs h]
    cases line with
    | byte => exact h.elim
    | _ => rfl
  · exact Option.some_ne_none _ ((asmBytes_of_asmLineIs h).symm.trans hnone)

end Sys2Proof.Machine
end

/-! Fetching and decoding, one turn of the run loop, the run, and register operands that name no register or are refused
(40_fetch_decode.md). -/

section
namespace Sys2Proof.Machine

/-! ### Frames -/

/-- Writing a listed register changes nothing else. -/
theorem setReg_onlyRegs {r : Reg} {rs : List Reg} (hr : r ∈ rs) (s : State) (v : Word) :
    OnlyRegs rs s (s.setReg r v) :=
  ⟨fun _ hq => State.reg_setReg_other s r v fun h => hq (h ▸ hr), State.setReg_flags s r v,
    setReg_sameMemLogParams s r v⟩

/-- An event changes the log alone. -/
theorem emit_onlyEvent (s : State) (e : Event) : OnlyEvent e s (s.emit e) :=
  ⟨fun r _ => State.emit_reg s e r, rfl, fun _ => rfl, rfl, rfl, rfl⟩

/-! ### The index table -/

/-- Settles O5: seven names, each looked up at the sixteen indices. -/
theorem resolveIsTheIndexTable : Obligations.ResolveIsTheIndexTable := by
  refine ⟨fun i x => ?_, by decide⟩
  cases x <;> revert i <;> decide

/-! ### Fetching -/

/-- Settles O6: the two answers of the fetch, by whether its address holds a byte. -/
theorem fetchByteReadsAtBpPlusPc : Obligations.FetchByteReadsAtBpPlusPc := by
  refine fun s => ⟨fun b hb => ⟨_, fetchByte_ok.2 ⟨hb, rfl⟩, ?_, setReg_onlyRegs (by simp) s _⟩, fun h =>
    fetchByte_error.2 ⟨State.byteAt_eq_none.2 h, rfl⟩⟩
  rw [State.reg_setReg_same, BitVec.toNat_add]
  rfl

theorem wordOfBytes_toNat (hi lo : Byte) : (wordOfBytes hi lo).toNat = 256 * hi.toNat + lo.toNat := by
  rw [wordOfBytes, BitVec.toNat_append, ← Nat.shiftLeft_add_eq_or_of_lt lo.isLt, Nat.shiftLeft_eq]
  omega

/-- Settles O7: two fetches, and the value of the two bytes put together. -/
theorem fetchedWordIsBigEndian : Obligations.FetchedWordIsBigEndian :=
  fun s hi lo h => ⟨_, fetchBytes_of_bytes [hi, lo] h, State.reg_setReg_same .., setReg_onlyRegs (by simp) s _,
    wordOfBytes_toNat hi lo⟩

section
variable {s : State} {op b : Byte} {bs : List Byte}

/-- The first of the bytes at the fetch addresses is the one at `bp +nat pc`. -/
theorem byteAt_fetchAddr_of_codeAt (h : CodeAt s (b :: bs)) : s.byteAt (fetchAddr s) = some b := by
  simpa only [codeAddr, fetchAddr, BitVec.add_zero, List.getElem_cons_zero] using h 0 (Nat.zero_lt_succ _)

/-- One fetch moves every code address down by one. -/
theorem codeAddr_setReg_pc_add_one (s : State) (k : Nat) :
    codeAddr (s.setReg .pc (s.reg .pc + 1)) k = codeAddr s (k + 1) := by
  rw [codeAddr, codeAddr, State.reg_setReg_same, State.reg_setReg_other _ _ _ (by decide), word_add_one_add]

/-- Past the first byte, the rest stands at the fetch addresses. -/
theorem codeAt_tail (h : CodeAt s (b :: bs)) : CodeAt (s.setReg .pc (s.reg .pc + 1)) bs := fun k hk => by
  rw [State.setReg_byteAt, codeAddr_setReg_pc_add_one, h (k + 1) (by simpa using hk), List.getElem_cons_succ]

/-- A fetch of more bytes than are there faults at the address after them (20_memory.md R62). -/
theorem fetchBytes_of_missing {n : Nat} (h : CodeAt s bs) (hn : bs.length < n)
    (hout : s.memSize ≤ codeAddr s bs.length) :
    fetchBytes n s = .error (.memFault (codeAddr s bs.length) .fetch s.log) := by
  induction bs generalizing s n with
  | nil =>
    obtain ⟨n, rfl⟩ := Nat.exists_eq_add_one_of_ne_zero (Nat.ne_of_gt hn)
    have haddr : codeAddr s 0 = fetchAddr s := by simp [codeAddr, fetchAddr]
    have hbyte : fetchByte s = .error (.memFault (codeAddr s 0) .fetch s.log) :=
      fetchByte_error.2 ⟨haddr ▸ State.byteAt_eq_none.2 hout, by rw [haddr]⟩
    simp [fetchBytes, hbyte]
  | cons b bs ih =>
    obtain ⟨n, rfl⟩ := Nat.exists_eq_add_one_of_ne_zero (Nat.ne_of_gt (Nat.zero_lt_of_lt hn))
    have hbyte := fetchByte_ok.2 ⟨byteAt_fetchAddr_of_codeAt h, rfl⟩
    have hrest := ih (codeAt_tail h) (by simpa using hn)
      (by rwa [codeAddr_setReg_pc_add_one, State.setReg_memSize])
    rw [codeAddr_setReg_pc_add_one, State.setReg_log] at hrest
    simp only [fetchBytes, hbyte, hrest, List.length_cons]

/-! ### The state within a step -/

/-- Before its opcode fetch a step has changed the log alone. -/
theorem traceStep_eq (s : State) : traceStep s = { s with log := logAfterTrace s } :=
  State.ext_reg (fun r => by rw [traceStep_reg]; cases r <;> rfl) (traceStep_flags s) (traceStep_mem s)
    (traceStep_log s) (traceStep_params s)

/-- The state past `n` bytes, by the operations of the step. -/
theorem afterFetch_eq (s : State) (n : Nat) :
    afterFetch s n = (traceStep s).setReg .pc (s.reg .pc + BitVec.ofNat 16 n) := by
  rw [afterFetch, traceStep_eq]

section AfterFetch
variable (s : State) (n : Nat)

@[simp] theorem afterFetch_flags : (afterFetch s n).flags = s.flags := by simp [afterFetch_eq]
@[simp] theorem afterFetch_params : (afterFetch s n).params = s.params := by simp [afterFetch_eq]
@[simp] theorem afterFetch_memSize : (afterFetch s n).memSize = s.memSize := by simp [afterFetch_eq]
@[simp] theorem afterFetch_log : (afterFetch s n).log = logAfterTrace s := by simp [afterFetch_eq]
@[simp] theorem afterFetch_byteAt (a : Nat) : (afterFetch s n).byteAt a = s.byteAt a := by simp [afterFetch_eq]

theorem afterFetch_pc : (afterFetch s n).reg .pc = s.reg .pc + BitVec.ofNat 16 n := State.reg_setReg_same ..

@[simp] theorem afterFetch_reg_other {r : Reg} (h : r ≠ .pc) : (afterFetch s n).reg r = s.reg r := by
  simp [afterFetch_eq, h]

/-- The address `k` bytes past those already fetched. -/
theorem codeAddr_afterFetch (k : Nat) : codeAddr (afterFetch s n) k = codeAddr s (n + k) := by
  rw [codeAddr, codeAddr, afterFetch_pc, afterFetch_reg_other s n (by decide), BitVec.ofNat_add, BitVec.add_assoc]

end AfterFetch

/-- The opcode fetch of a step (R116). -/
theorem fetchByte_traceStep (h : CodeAt s (op :: bs)) : fetchByte (traceStep s) = .ok (op, afterFetch s 1) :=
  fetchByte_ok.2 ⟨by simpa using byteAt_fetchAddr_of_codeAt h, by rw [traceStep_reg, afterFetch_eq]; rfl⟩

/-- After the opcode byte, the operand bytes stand at the fetch addresses. -/
theorem codeAt_afterFetch_one (h : CodeAt s (op :: bs)) : CodeAt (afterFetch s 1) bs := fun k hk => by
  rw [afterFetch_byteAt, codeAddr_afterFetch, Nat.add_comm, h (k + 1) (by simpa using hk), List.getElem_cons_succ]

/-- The operand fetches of a step. -/
theorem fetchBytes_afterFetch_one (h : CodeAt s (op :: bs)) :
    fetchBytes bs.length (afterFetch s 1) = .ok (bs, afterFetch s (op :: bs).length) := by
  rw [fetchBytes_of_bytes bs (codeAt_afterFetch_one h), afterFetch_pc, afterFetch_eq, afterFetch_eq,
    State.setReg_setReg_same, List.length_cons, Nat.add_comm, BitVec.ofNat_add, BitVec.add_assoc]

/-! ### The loop test -/

theorem loopTest_eq_none : loopTest s = none ↔ LoopGoesOn s := by
  rw [loopTest, LoopGoesOn]
  split
  · simp [*]
  · split
    · simp [*]
    · simp [*, ← Nat.not_le]

theorem loopTest_pcOutOfRange (hhalt : s.flag .halt = false) (hpc : s.memSize ≤ (s.reg .pc).toNat) :
    loopTest s = some .pcOutOfRange := by
  simp [loopTest, hhalt, hpc]

theorem step_of_loopGoesOn (h : LoopGoesOn s) : step s = stepInstr s := by
  rw [step, loopTest_eq_none.2 h]

theorem step_of_loopTest {f : Fault} (h : loopTest s = some f) : step s = .fault f := by
  rw [step, h]

/-- Settles O13: no pc reaches 65536, and every pc reaches 0. -/
theorem loopBoundAtTheEndsOfTheRange : Obligations.LoopBoundAtTheEndsOfTheRange :=
  fun s hhalt => ⟨fun hN => step_of_loopGoesOn ⟨hhalt, hN ▸ (s.reg .pc).isLt⟩,
    fun hN => step_of_loopTest (loopTest_pcOutOfRange hhalt (hN ▸ Nat.zero_le _))⟩

/-! ### What a step does -/

theorem stepInstr_of_fetchByte_error {f : Fault} (h : fetchByte (traceStep s) = .error f) :
    stepInstr s = .fault f := by
  rw [stepInstr, h]

theorem stepInstr_of_unknown (h : CodeAt s (op :: bs)) (hop : decodeOpcode s.params.opcodeMap op = none) :
    stepInstr s = .next (reportUnknownOpcode op (afterFetch s 1)) := by
  simp [stepInstr, fetchByte_traceStep h, hop]

theorem stepInstr_of_fetchBytes_error {k : Mnemonic} {f : Fault} (h : CodeAt s (op :: bs))
    (hop : decodeOpcode s.params.opcodeMap op = some k)
    (hf : fetchBytes (operandLength k) (afterFetch s 1) = .error f) : stepInstr s = .fault f := by
  simp [stepInstr, fetchByte_traceStep h, hop, hf]

theorem stepInstr_of_operands {k : Mnemonic} (h : CodeAt s (op :: bs))
    (hop : decodeOpcode s.params.opcodeMap op = some k) (hlen : bs.length = operandLength k) :
    stepInstr s = exec (decodeOperands k bs) (afterFetch s (op :: bs).length) := by
  have hbs := fetchBytes_afterFetch_one h
  rw [hlen] at hbs
  simp [stepInstr, fetchByte_traceStep h, hop, hbs]

end

/-- Settles O10: a raw pc in range reaches the opcode fetch, which faults; one out of range ends at the loop test. -/
theorem loopBoundAndFetchAddressDisagree : Obligations.LoopBoundAndFetchAddressDisagree := by
  refine fun s hhalt => ⟨fun hpc haddr => ?_, fun hpc => step_of_loopTest (loopTest_pcOutOfRange hhalt hpc)⟩
  rw [step_of_loopGoesOn ⟨hhalt, hpc⟩]
  apply stepInstr_of_fetchByte_error
  rw [fetchByte_error, traceStep_fetchAddr, traceStep_byteAt, traceStep_log]
  exact ⟨State.byteAt_eq_none.2 haddr, rfl⟩

/-- Settles O9: the lookup finds nothing, so the report acts on the state past the opcode byte. -/
theorem unknownOpcodeIsReportedAndSkipped : Obligations.UnknownOpcodeIsReportedAndSkipped := by
  intro s op hgo hcode hop
  refine ⟨reportUnknownOpcode op (afterFetch s 1), ?_, ?_, fun r hr => ?_, ?_, fun a => ?_, ?_, ?_, ?_⟩
  · rw [step_of_loopGoesOn hgo, stepInstr_of_unknown hcode (decodeOpcode_none.2 hop)]
  · exact (State.emit_reg ..).trans (afterFetch_pc s 1)
  · exact (State.emit_reg ..).trans (afterFetch_reg_other s 1 (by simpa using hr))
  all_goals simp [reportUnknownOpcode]

/-- Settles O11: the operand fetch acts on the state past the opcode byte. -/
theorem operandFetchFaults : Obligations.OperandFetchFaults := by
  intro s k op bs hgo hop hcode hlen hout
  rw [step_of_loopGoesOn hgo]
  apply stepInstr_of_fetchBytes_error hcode hop
  rw [← codeAddr_afterFetch] at hout ⊢
  rw [← afterFetch_log s 1]
  exact fetchBytes_of_missing (codeAt_afterFetch_one hcode) hlen (by rwa [afterFetch_memSize])

/-- Settles O8: what decodes with nothing left over is an encoding, whose operand bytes the step fetches. -/
theorem stepRunsTheDecodedInstruction : Obligations.StepRunsTheDecodedInstruction := by
  intro s bs i hgo hcode hdec
  obtain ⟨hop, rfl⟩ := decode_eq_ok.1 hdec
  rw [List.append_nil, encode] at hcode ⊢
  rw [step_of_loopGoesOn hgo, stepInstr_of_operands hcode hop (encodeOperands_length i),
    decodeOperands_encodeOperands]

/-- Settles O54: the byte 0x00 is the encoding of NOP. -/
theorem nopOnlyAdvancesPc : Obligations.NopOnlyAdvancesPc :=
  ⟨fun _ => rfl, fun s hm hgo hcode =>
    stepRunsTheDecodedInstruction s [0x00#8] .nop hgo hcode (decodeEncodeAgree _ hm .nop [])⟩

/-! ### The events of a step -/

/-- The log has grown by one event at most, which is no trace. -/
def AtMostOneEvent (l l' : List Event) : Prop :=
  l' = l ∨ ∃ e, l' = l ++ [e] ∧ ∀ regs flags, e ≠ .trace regs flags

theorem AtMostReport.atMostOneEvent {s t : State} (h : AtMostReport s t) : AtMostOneEvent s.log t.log :=
  h.imp_right fun ⟨_, hd⟩ => ⟨_, hd, nofun⟩

/-- SYS 0x01 emits a character, and every other instruction a report at most. -/
theorem exec_atMostOneEvent {i : Instr} {s t : State} (h : exec i s = .next t) : AtMostOneEvent s.log t.log := by
  by_cases hi : i = .sys 0x01#8
  · subst hi
    cases (execSys_putCharacter s).symm.trans h
    exact .inr ⟨_, State.emit_log .., nofun⟩
  · exact (exec_atMostReport hi h).atMostOneEvent

/-- Settles O14: the fetches emit nothing between the trace and the event of the instruction, or the report of an
unknown byte. -/
theorem stepEmitsTraceThenAtMostOneEvent : Obligations.StepEmitsTraceThenAtMostOneEvent := by
  intro s t h
  obtain ⟨op, s1, hop, hrest⟩ := stepInstr_next (step_next h).2
  obtain ⟨-, rfl⟩ := fetchByte_ok.1 hop
  rcases hrest with ⟨-, rfl⟩ | ⟨k, bs, s2, -, hbs, hexec⟩
  · refine .inr ⟨.diag (.unknownOpcode op), ?_, nofun⟩
    rw [reportUnknownOpcode, State.emit_log, State.setReg_log, traceStep_log]
  · obtain ⟨-, rfl, -⟩ := fetchBytes_ok hbs
    have hlog := exec_atMostOneEvent hexec
    rwa [State.setReg_log, State.setReg_log, traceStep_log] at hlog

/-! ### The run -/

/-- A run ends at once where the loop test stops it, whatever the fuel. -/
theorem run_of_loopTest {s : State} {f : Fault} (n : Nat) (h : loopTest s = some f) : run n s = endOfRun s f := by
  cases n with
  | zero => rw [run, h]
  | succ n => rw [run, step_of_loopTest h]

/-- Settles O12: `run` is the loop test and then `stepInstr`, whose faults are MemFaults. -/
theorem runRepeatsStepUntilItEnds : Obligations.RunRepeatsStepUntilItEnds := by
  refine fun n s => ⟨fun hhalt => run_of_loopTest n (loopTest_halted.2 hhalt),
    fun hhalt hpc => run_of_loopTest n (loopTest_pcOutOfRange hhalt hpc), fun hgo => ?_⟩
  rw [run, step_of_loopGoesOn hgo]
  refine ⟨fun t ht => by rw [ht], fun f hf => ?_, fun r hr => by rw [hr]⟩
  obtain ⟨a, k, log, rfl⟩ := stepInstr_fault hf
  exact ⟨a, k, log, rfl, by rw [hf]; rfl⟩

/-! ### Register operands: refused, or none -/

/-- `reg_operand` refuses a non-zero high nibble under `refuse`, and nothing else (R114). -/
theorem regOperand_error {p : Params} {h r : Nibble} {e : Refusal} :
    regOperand p h r = .error e ↔
      h ≠ 0#4 ∧ p.regByteHighNibble = .refuse ∧ e = .regByteHighNibble (byteOfNibbles h r) := by
  by_cases hh : h = 0#4
  · simp [regOperand, hh]
  · cases hp : p.regByteHighNibble <;> simp [regOperand, hh, hp, eq_comm]

theorem regOperand_none {s : State} {h r : Nibble} (hn : NamesNone s h r) : regOperand s.params h r = .ok none := by
  rcases hn with ⟨hr, hh | hp⟩ | ⟨hh, hp⟩
  · simp [regOperand, hh, hr]
  · simp [regOperand, hp, hr]
  · simp [regOperand, hh, hp]

section WithRegOperand
variable {s : State} {h r : Nibble} {act : Reg → State}

theorem withRegOperand_refused {e : Refusal} :
    withRegOperand h r s act = .refused e ↔ regOperand s.params h r = .error e := by
  rcases hr : regOperand s.params h r with e | (_ | x) <;> simp [withRegOperand, hr]

/-- An operand that resolves to none is reported, whatever the instruction would do with a register (R115). -/
theorem withRegOperand_of_namesNone (hn : NamesNone s h r) :
    withRegOperand h r s act = .next (reportInvalidRegister r s) :=
  withRegOperand_next.2 (.inl ⟨regOperand_none hn, rfl⟩)

/-- Under `refuse` a non-zero high nibble is refused, whatever the instruction would do with a register (R114). -/
theorem withRegOperand_of_refuse (hh : h ≠ 0#4) (hp : s.params.regByteHighNibble = .refuse) :
    withRegOperand h r s act = .refused (.regByteHighNibble (byteOfNibbles h r)) :=
  withRegOperand_refused.2 (regOperand_error.2 ⟨hh, hp, rfl⟩)

end WithRegOperand

/-- The stack bytes being below N, a pop answers some value and lowers sp by 2 (41_stack.md R141). -/
theorem pop16_of_lt {s : State} (h1 : (s.reg .sp - 1).toNat < s.memSize) (h2 : (s.reg .sp - 2).toNat < s.memSize) :
    ∃ v, pop16 s = .ok (v, s.setReg .sp (s.reg .sp - 2)) := by
  have hsp : s.reg .sp - 1 - 1 = s.reg .sp - 2 := by bv_omega
  exact ⟨_, pop16_ok.2 ⟨_, _, if_pos h1, if_pos (hsp ▸ h2), rfl, by rw [hsp]⟩⟩

/-- POP is a pop and then the tail every register operand has (41_stack.md R144). -/
theorem exec_pop_of_pop16 {h r : Nibble} {v : Word} {s u : State} (hp : pop16 s = .ok (v, u)) :
    exec (.pop h r) s = withRegOperand h r u fun x => u.setReg x v := by
  simp [exec, execPop, hp]

/-- Settles O43: CMPI refuses after its clear and POP after its pop, neither of which changes the parameters. -/
theorem highNibbleIsRefusedUnderRefuse : Obligations.HighNibbleIsRefusedUnderRefuse := by
  intro s imm h r hh hp
  refine ⟨withRegOperand_of_refuse hh hp, withRegOperand_of_refuse hh hp, withRegOperand_of_refuse hh hp,
    withRegOperand_of_refuse (s := clearCmpFlags s) hh hp, fun h1 h2 => ?_⟩
  obtain ⟨v, hpop⟩ := pop16_of_lt h1 h2
  rw [exec_pop_of_pop16 hpop]
  exact withRegOperand_of_refuse hh (by rwa [State.setReg_params])

/-- What a refusal says: a register byte with a non-zero high nibble, under `refuse`. -/
def RefusesRegByte (s : State) (e : Refusal) : Prop :=
  s.params.regByteHighNibble = .refuse ∧ ∃ h l : Nibble, h ≠ 0#4 ∧ e = .regByteHighNibble (byteOfNibbles h l)

theorem withRegOperand_refusesRegByte {s : State} {h r : Nibble} {act : Reg → State} {e : Refusal}
    (hx : withRegOperand h r s act = .refused e) : RefusesRegByte s e := by
  obtain ⟨hh, hp, he⟩ := regOperand_error.1 (withRegOperand_refused.1 hx)
  exact ⟨hp, h, r, hh, he⟩

theorem pushOutcome_not_refused {v : Word} {s : State} {e : Refusal} : pushOutcome v s ≠ .refused e := by
  rw [pushOutcome]
  split <;> simp

theorem execSys_not_refused {n : Byte} {s : State} {e : Refusal} : execSys n s ≠ .refused e := by
  rw [execSys]
  split_ifs <;> simp

theorem exec_refusesRegByte {i : Instr} {s : State} {e : Refusal} (h : exec i s = .refused e) :
    RefusesRegByte s e := by
  cases i with
  | pop hn r =>
    rcases hp : pop16 s with f | ⟨v, u⟩
    · simp [exec, execPop, hp] at h
    · rw [exec_pop_of_pop16 hp] at h
      have hu := withRegOperand_refusesRegByte h
      rwa [RefusesRegByte, (pop16_sameConfig hp).2] at hu
  | addi imm hn r | andi imm hn r | ori imm hn r => exact withRegOperand_refusesRegByte h
  | cmpi imm hn r => exact withRegOperand_refusesRegByte (s := clearCmpFlags s) h
  | push hn r =>
    simp only [exec, execPush] at h
    split at h
    · cases h
    · exact absurd h pushOutcome_not_refused
  | pushi imm => exact absurd h pushOutcome_not_refused
  | sys n => exact absurd h execSys_not_refused
  | cmp a b => simp only [exec, execCmp] at h; split at h <;> cases h
  | nop | add | branch | branchLessThan | branchGreaterThan | branchEqualTo | branchNotEqualTo => cases h

/-- A `step()` that is refused is refused by its instruction, on a state with the machine's own parameters. -/
theorem stepInstr_refused {s : State} {e : Refusal} (h : stepInstr s = .refused e) :
    ∃ i s2, SameConfig s s2 ∧ exec i s2 = .refused e := by
  rcases hop : fetchByte (traceStep s) with f | ⟨op, s1⟩
  · simp [stepInstr, hop] at h
  · rcases hd : decodeOpcode s1.params.opcodeMap op with _ | k
    · simp [stepInstr, hop, hd] at h
    · rcases hbs : fetchBytes (operandLength k) s1 with f | ⟨bs, s2⟩
      · simp [stepInstr, hop, hd, hbs] at h
      · refine ⟨decodeOperands k bs, s2, ?_, by simpa [stepInstr, hop, hd, hbs] using h⟩
        exact ((traceStep_sameConfig s).trans (fetchByte_sameConfig hop)).trans (fetchBytes_sameConfig hbs)

/-- Settles O24: the loop test refuses nothing, and an instruction's refusal is that of a register byte. -/
theorem refusedOnlyForARegisterByte : Obligations.RefusedOnlyForARegisterByte := by
  intro s e h
  rcases hl : loopTest s with _ | f
  · rw [step_of_loopGoesOn (loopTest_eq_none.1 hl)] at h
    obtain ⟨i, s2, hcfg, hexec⟩ := stepInstr_refused h
    have h2 := exec_refusesRegByte hexec
    rwa [RefusesRegByte, hcfg.2] at h2
  · rw [step_of_loopTest hl] at h
    cases h

/-- Clearing both comparison flags is what a comparison with difference 0 does. -/
theorem clearCmpFlags_compared (s : State) : Compared 0 s (clearCmpFlags s) := by
  refine ⟨by simp, by simp, ⟨by simp, by simp, clearCmpFlags_highBits s⟩, fun r _ => clearCmpFlags_reg s r,
    fun _ => rfl, rfl, rfl, rfl⟩

/-- CMP with an index that names no register: one report, the source's first (42_alu.md R162). -/
theorem exec_cmp_of_none {a b : Nibble} (h : resolve a = none ∨ resolve b = none) (s : State) :
    exec (.cmp a b) s =
      .next (reportInvalidRegister (if resolve a = none then a else b) (clearCmpFlags s)) := by
  rcases ha : resolve a with _ | x
  · simp [exec, execCmp, ha]
  · have hb : resolve b = none := h.resolve_left (by simp [ha])
    simp [exec, execCmp, ha, hb]

/-- Settles O42: the report acts on the state that the rule's earlier effects leave. -/
theorem invalidRegisterIsReportedAndSkipped : Obligations.InvalidRegisterIsReportedAndSkipped := by
  refine fun s imm h r => ⟨fun hr => ⟨_, ?_, emit_onlyEvent s _⟩, fun hn => ⟨?_, ?_, ?_, ?_, ?_⟩, fun hnone => ?_⟩
  · simp [exec, execPush, hr, reportInvalidRegister]
  · exact ⟨_, withRegOperand_of_namesNone hn, emit_onlyEvent s _⟩
  · exact ⟨_, withRegOperand_of_namesNone hn, emit_onlyEvent s _⟩
  · exact ⟨_, withRegOperand_of_namesNone hn, emit_onlyEvent s _⟩
  · exact ⟨_, clearCmpFlags s, withRegOperand_of_namesNone (s := clearCmpFlags s) hn, clearCmpFlags_compared s,
      emit_onlyEvent _ _⟩
  · intro h1 h2
    obtain ⟨v, hpop⟩ := pop16_of_lt h1 h2
    have hn' : NamesNone (s.setReg .sp (s.reg .sp - 2)) h r := by rwa [NamesNone, State.setReg_params]
    exact ⟨_, _, (exec_pop_of_pop16 hpop).trans (withRegOperand_of_namesNone hn'), State.reg_setReg_same ..,
      setReg_onlyRegs (by simp) s _, emit_onlyEvent _ _⟩
  · exact ⟨_, _, exec_cmp_of_none hnone s, clearCmpFlags_compared s, emit_onlyEvent _ _⟩

end Sys2Proof.Machine
end

/-! The stack: a push and a pop in full, the round trip, and the instructions that push and pop (41_stack.md). -/

section
namespace Sys2Proof.Machine

/-! ### Pushing -/

/-- What a push that succeeds does, and that it does nothing else (41_stack.md R140). -/
theorem push16_pushed {v : Word} {s t : State} (hwf : s.mem.wf) (h : push16 v s = .ok t) : Pushed v s t := by
  have hbyte := push16_byteAt hwf h
  have hregs : SameRegsBut [.sp] s t := (push16_writesOnly (fs := []) (by simp) h).1
  obtain ⟨-, -, rfl⟩ := push16_ok.1 h
  refine ⟨?_, ?_, ?_, fun a ha ha1 => ?_, hregs, by simp, by simp, by simp, by simp⟩
  · rw [State.reg_setReg_same]
    bv_omega
  · rw [hbyte, if_neg (toNat_ne_toNat_add_one _), if_pos rfl, hiByte_eq_ofNat]
  · rw [hbyte, if_pos rfl, loByte_eq_ofNat]
  · rw [hbyte, if_neg ha1, if_neg ha]

section Push
variable {s : State}

/-- Both stack bytes being below N, every value can be pushed. -/
theorem exists_push16_pushed (hwf : s.mem.wf) (h0 : (s.reg .sp).toNat < s.memSize)
    (h1 : (s.reg .sp + 1).toNat < s.memSize) (v : Word) : ∃ t, push16 v s = .ok t ∧ Pushed v s t :=
  have hpush := push16_ok.2 ⟨h0, h1, rfl⟩
  ⟨_, hpush, push16_pushed hwf hpush⟩

theorem push16_error_of_le (h0 : s.memSize ≤ (s.reg .sp).toNat) (v : Word) :
    push16 v s = .error (.memFault (s.reg .sp).toNat .write s.log) :=
  push16_error.2 (.inl ⟨h0, rfl⟩)

theorem push16_error_of_lt_of_le (h0 : (s.reg .sp).toNat < s.memSize) (h1 : s.memSize ≤ (s.reg .sp + 1).toNat)
    (v : Word) : push16 v s = .error (.memFault (s.reg .sp + 1).toNat .write s.log) :=
  push16_error.2 (.inr ⟨h0, h1, rfl⟩)

end Push

/-- Settles O35: the push's success, with its frame, and its two faults. -/
theorem pushSixteen : Obligations.PushSixteen :=
  fun v _ hwf => ⟨fun h0 h1 => exists_push16_pushed hwf h0 h1 v, fun h0 => push16_error_of_le h0 v,
    fun h0 h1 => push16_error_of_lt_of_le h0 h1 v⟩

/-! ### Popping -/

theorem word_sub_one_sub_one (w : Word) : w - 1 - 1 = w - 2 := by
  bv_omega

section Pop
variable {s : State} {lo hi : Byte}

/-- A pop answers the two bytes below sp, the nearer one the low one, and changes sp alone (41_stack.md R141). -/
theorem pop16_of_byteAt (hlo : s.byteAt (s.reg .sp - 1).toNat = some lo)
    (hhi : s.byteAt (s.reg .sp - 2).toNat = some hi) :
    pop16 s = .ok (wordOfBytes hi lo, s.setReg .sp (s.reg .sp - 2)) := by
  rw [← word_sub_one_sub_one] at hhi ⊢
  exact pop16_ok.2 ⟨lo, hi, hlo, hhi, rfl, rfl⟩

theorem pop16_error_of_le (h1 : s.memSize ≤ (s.reg .sp - 1).toNat) :
    pop16 s = .error (.memFault (s.reg .sp - 1).toNat .read s.log) :=
  pop16_error.2 (.inl ⟨h1, rfl⟩)

theorem pop16_error_of_lt_of_le (h1 : (s.reg .sp - 1).toNat < s.memSize) (h2 : s.memSize ≤ (s.reg .sp - 2).toNat) :
    pop16 s = .error (.memFault (s.reg .sp - 2).toNat .read s.log) := by
  rw [← word_sub_one_sub_one] at h2 ⊢
  exact pop16_error.2 (.inr ⟨h1, h2, rfl⟩)

end Pop

/-- Settles O36: the pop's success and its two faults. -/
theorem popSixteen : Obligations.PopSixteen :=
  fun s => ⟨fun lo hi hlo hhi => ⟨_, _, pop16_of_byteAt hlo hhi, wordOfBytes_toNat hi lo, State.reg_setReg_same ..,
    setReg_onlyRegs (by simp) s _⟩, pop16_error_of_le, pop16_error_of_lt_of_le⟩

/-! ### The round trip -/

/-- After a push the pop finds the value's own two bytes (41_stack.md R146). -/
theorem pop16_of_pushed {v : Word} {s t : State} (h : Pushed v s t) :
    pop16 t = .ok (v, t.setReg .sp (s.reg .sp)) := by
  obtain ⟨hsp, hhi, hlo, -⟩ := h
  have h1 : t.reg .sp - 1 = s.reg .sp + 1 := by rw [hsp]; bv_omega
  have h2 : t.reg .sp - 2 = s.reg .sp := by rw [hsp]; bv_omega
  rw [← hiByte_eq_ofNat, ← h2] at hhi
  rw [← loByte_eq_ofNat, ← h1] at hlo
  rw [pop16_of_byteAt hlo hhi, wordOfBytes_hiByte_loByte, h2]

/-- Settles O37: the push leaves every register but sp, and the pop writes sp back. -/
theorem popAfterPushGivesTheValueBack : Obligations.PopAfterPushGivesTheValueBack := by
  intro v s t hwf hpush
  have hpushed := push16_pushed hwf hpush
  have hpop := pop16_of_pushed hpushed
  obtain ⟨-, -, -, -, hregs, hflags, -, hlog, -⟩ := hpushed
  refine ⟨_, hpop, fun r _ => ?_, fun a => State.setReg_byteAt .., ?_, ?_⟩
  · by_cases hr : r = .sp
    · rw [hr, State.reg_setReg_same]
    · rw [State.reg_setReg_other _ _ _ hr, hregs r (by simpa using hr)]
  · rw [State.setReg_flags, hflags]
  · rw [State.setReg_log, hlog]

/-! ### The instructions that push -/

/-- PUSH of a register pushes the value it has before the push, whatever the high nibble (41_stack.md R142). -/
theorem exec_push_of_resolve {r : Nibble} {x : Reg} (hr : resolve r = some x) (h : Nibble) (s : State) :
    exec (.push h r) s = pushOutcome (s.reg x) s := by
  simp [exec, execPush, hr]

theorem exec_pushi (imm : Word) (s : State) : exec (.pushi imm) s = pushOutcome imm s := rfl

theorem pushOutcome_fault {v : Word} {s : State} {f : Fault} : pushOutcome v s = .fault f ↔ push16 v s = .error f := by
  rcases h : push16 v s with g | t <;> simp [pushOutcome, h]

/-- Settles O38: both instructions end in the push of a value, and every value can be pushed. -/
theorem pushCompletes : Obligations.PushCompletes := by
  intro s hwf h0 h1
  have hpush : ∀ v, ∃ t, pushOutcome v s = .next t ∧ Pushed v s t := fun v => by
    obtain ⟨t, ht, hpushed⟩ := exists_push16_pushed hwf h0 h1 v
    exact ⟨t, pushOutcome_next.2 ht, hpushed⟩
  refine ⟨fun h r x hr => ?_, hpush⟩
  rw [exec_push_of_resolve hr]
  exact hpush (s.reg x)

/-- Where no value can be pushed, PUSH of a register and PUSHI fault as the push does. -/
theorem exec_pushes_fault {s : State} {f : Fault} (hf : ∀ v, push16 v s = .error f) :
    (∀ h r x, resolve r = some x → exec (.push h r) s = .fault f) ∧ ∀ imm, exec (.pushi imm) s = .fault f :=
  ⟨fun h _ _ hr => (exec_push_of_resolve hr h s).trans (pushOutcome_fault.2 (hf _)),
    fun imm => (exec_pushi imm s).trans (pushOutcome_fault.2 (hf imm))⟩

/-! ### The instruction that pops -/

section RegOperand
variable {s : State} {h r : Nibble} {x : Reg}

theorem regOperand_of_namesReg (hx : NamesReg s h r x) : regOperand s.params h r = .ok (some x) := by
  obtain ⟨hr, hh | hp⟩ := hx
  · simp [regOperand, hh, hr]
  · simp [regOperand, hp, hr]

/-- The tail of a register-operand instruction acts on the register its byte names (40_fetch_decode.md R114). -/
theorem withRegOperand_of_namesReg (hx : NamesReg s h r x) (act : Reg → State) :
    withRegOperand h r s act = .next (act x) :=
  withRegOperand_next.2 (.inr ⟨x, regOperand_of_namesReg hx, rfl⟩)

end RegOperand

theorem OnlyRegs.trans {rs : List Reg} {s t u : State} (h1 : OnlyRegs rs s t) (h2 : OnlyRegs rs t u) :
    OnlyRegs rs s u := by
  obtain ⟨hregs1, hflags1, hmem1, hsize1, hlog1, hparams1⟩ := h1
  obtain ⟨hregs2, hflags2, hmem2, hsize2, hlog2, hparams2⟩ := h2
  exact ⟨fun r hr => (hregs2 r hr).trans (hregs1 r hr), hflags2.trans hflags1, fun a => (hmem2 a).trans (hmem1 a),
    hsize2.trans hsize1, hlog2.trans hlog1, hparams2.trans hparams1⟩

/-- Settles O39: the register is written after the pop's write of sp. -/
theorem popCompletes : Obligations.PopCompletes := by
  intro s h r x lo hi hx hlo hhi
  have hx' : NamesReg (s.setReg .sp (s.reg .sp - 2)) h r x := by rwa [NamesReg, State.setReg_params]
  refine ⟨_, (exec_pop_of_pop16 (pop16_of_byteAt hlo hhi)).trans (withRegOperand_of_namesReg hx' _), ?_, fun hsp => ?_,
    (setReg_onlyRegs (by simp) s _).trans (setReg_onlyRegs (by simp) _ _)⟩
  · rw [State.reg_setReg_same, wordOfBytes_toNat]
  · rw [State.reg_setReg_other _ _ _ hsp.symm, State.reg_setReg_same]

theorem exec_pop_fault {s : State} {f : Fault} (hf : pop16 s = .error f) (h r : Nibble) :
    exec (.pop h r) s = .fault f := by
  simp [exec, execPop, hf]

/-- Settles O40: the faults of the push and of the pop, whatever the value and the register byte. -/
theorem stackInstructionsFault : Obligations.StackInstructionsFault :=
  fun _ => ⟨fun h0 => exec_pushes_fault (push16_error_of_le h0),
    fun h0 h1 => exec_pushes_fault (push16_error_of_lt_of_le h0 h1), fun h1 => exec_pop_fault (pop16_error_of_le h1),
    fun h1 h2 => exec_pop_fault (pop16_error_of_lt_of_le h1 h2)⟩

end Sys2Proof.Machine
end

/-! The ALU: the sign of a comparison and the flags it sets, and the instructions of the family (42_alu.md). -/

section
namespace Sys2Proof.Machine

/-! ### The difference of a comparison -/

/-- The model's difference is the one R172 writes, with the two's-complement reading of 00_scope.md R11. -/
theorem cmpDelta_eq_specDelta (mode : CmpMode) (a b : Word) : cmpDelta mode a b = specDelta mode a b := by
  cases mode <;> simp only [cmpDelta, specDelta, toInt16_eq_toInt]

/-- Under every mode the difference is 0 on equal operands alone (42_alu.md R174). -/
theorem specDelta_eq_zero {mode : CmpMode} {a b : Word} : specDelta mode a b = 0 ↔ a = b := by
  cases mode with
  | unsigned => rw [specDelta, Int.sub_eq_zero, Int.natCast_inj, BitVec.toNat_inj]
  | signed16 => rw [specDelta, Int.sub_eq_zero, BitVec.toInt_inj]
  | wrap16 => rw [specDelta, ← BitVec.toInt_zero (w := 16), BitVec.toInt_inj, BitVec.sub_eq_iff_eq_add, BitVec.zero_add]

section EqualSigns
variable {a b : Word} (h : a.msb = b.msb)
include h

/-- Two words with one top bit are as far apart in the two's-complement reading as in the unsigned one. -/
theorem toInt_sub_toInt_of_msb_eq : a.toInt - b.toInt = (a.toNat : Int) - b.toNat := by
  rw [BitVec.toInt_eq_msb_cond, BitVec.toInt_eq_msb_cond, h]
  split <;> omega

/-- The difference of two numbers of one sign is in range, so the wrap does not change it. -/
theorem toInt_sub_of_msb_eq : (a - b).toInt = a.toInt - b.toInt := by
  have hneg : a.toInt < 0 ↔ b.toInt < 0 := by simpa [BitVec.msb_eq_toInt] using h
  have ha := a.toInt_lt
  have ha' := a.le_toInt
  have hb := b.toInt_lt
  have hb' := b.le_toInt
  rw [BitVec.toInt_sub]
  exact Int.bmod_eq_of_le (by omega) (by omega)

/-- Operands that agree in bit 15 have one difference under every mode (42_alu.md R174). -/
theorem specDelta_of_msb_eq (mode : CmpMode) : specDelta mode a b = (a.toNat : Int) - b.toNat := by
  cases mode with
  | unsigned => rfl
  | signed16 => exact toInt_sub_toInt_of_msb_eq h
  | wrap16 => exact (toInt_sub_of_msb_eq h).trans (toInt_sub_toInt_of_msb_eq h)

end EqualSigns

/-! ### The sign of a comparison -/

section AluCmp
variable {mode : CmpMode} {a b : Word}

theorem aluCmp_eq_neg : aluCmp mode a b = .neg ↔ specDelta mode a b < 0 := by
  rw [aluCmp, cmpDelta_eq_specDelta]
  split_ifs <;> simp [*]

theorem aluCmp_eq_zero : aluCmp mode a b = .zero ↔ specDelta mode a b = 0 := by
  rw [aluCmp, cmpDelta_eq_specDelta]
  split_ifs <;> simp <;> omega

theorem aluCmp_eq_pos : aluCmp mode a b = .pos ↔ 0 < specDelta mode a b := by
  rw [aluCmp, cmpDelta_eq_specDelta]
  split_ifs <;> simp <;> omega

end AluCmp

/-- Settles O51: on equal bits 15 the three differences are one number, and each is 0 on equal operands alone. -/
theorem cmpModesAgreeOnEqualSigns : Obligations.CmpModesAgreeOnEqualSigns := by
  refine fun p q a b => ⟨fun h => ?_, aluCmp_eq_zero.trans specDelta_eq_zero⟩
  have hmsb : a.msb = b.msb := by rwa [BitVec.msb_eq_getLsbD_last, BitVec.msb_eq_getLsbD_last]
  simp only [aluCmp, cmpDelta_eq_specDelta, specDelta_of_msb_eq hmsb]

/-! ### The flags of a comparison -/

/-- Settles O45: one flag write at most, of the flag the result names. -/
theorem setCmpFlagsSetsAtMostOne : Obligations.SetCmpFlagsSetsAtMostOne := by
  intro c s hl hg
  refine ⟨?_, ?_, ⟨?_, ?_, setCmpFlags_highBits s c⟩, fun r _ => setCmpFlags_reg s c r,
    sameMemory_of_mem_eq (setCmpFlags_mem s c), setCmpFlags_memSize s c, setCmpFlags_log s c, setCmpFlags_params s c⟩
  all_goals cases c <;> simp [setCmpFlags, hl, hg]

/-- A comparison sets the flags after it has cleared them, so they say the sign whatever they were (42_alu.md R162,
R163, R173). -/
theorem setCmpFlags_aluCmp_compared (mode : CmpMode) (a b : Word) (s : State) :
    Compared (specDelta mode a b) s (setCmpFlags (aluCmp mode a b) (clearCmpFlags s)) := by
  obtain ⟨hl, hg, hother, hregs, hframe⟩ :=
    setCmpFlagsSetsAtMostOne (aluCmp mode a b) (clearCmpFlags s) (by simp) (by simp)
  refine ⟨?_, ?_, by simpa [SameOtherFlags] using hother, fun r hr => ?_, hframe⟩
  · simp only [hl, aluCmp_eq_neg]
  · simp only [hg, aluCmp_eq_pos]
  · rw [hregs r hr, clearCmpFlags_reg]

/-- CMP of two registers compares their values (42_alu.md R162). -/
theorem exec_cmp_of_resolve {a b : Nibble} {x y : Reg} (ha : resolve a = some x) (hb : resolve b = some y)
    (s : State) :
    exec (.cmp a b) s =
      .next (setCmpFlags (aluCmp s.params.cmpMode (s.reg x) (s.reg y)) (clearCmpFlags s)) := by
  simp [exec, execCmp, ha, hb]

/-- Settles O49: both indices name a register, so the comparison is made. -/
theorem compareRegistersCompletes : Obligations.CompareRegistersCompletes :=
  fun s _ _ _ _ ha hb => ⟨_, exec_cmp_of_resolve ha hb s, setCmpFlags_aluCmp_compared ..⟩

/-- Settles O50: the clear before the register byte is resolved leaves the parameters it is resolved under. -/
theorem compareImmediateCompletes : Obligations.CompareImmediateCompletes :=
  fun s _ _ _ _ hx =>
    ⟨_, withRegOperand_of_namesReg (s := clearCmpFlags s) hx _, setCmpFlags_aluCmp_compared ..⟩

/-! ### Sum and bits -/

/-- Settles O44: each function is the operation of that name on 16-bit vectors. -/
theorem aluAddAndBitwiseFunctions : Obligations.AluAddAndBitwiseFunctions :=
  fun a b => ⟨BitVec.toNat_add a b, fun _ => BitVec.getLsbD_and, fun _ => BitVec.getLsbD_or⟩

/-- Settles O46: the register written holds `alu_add` of its value and the immediate. -/
theorem addImmediateCompletes : Obligations.AddImmediateCompletes := by
  refine fun s imm h r x hx => ⟨_, withRegOperand_of_namesReg hx _, ?_, setReg_onlyRegs (by simp) s _⟩
  rw [State.reg_setReg_same]
  exact (aluAddAndBitwiseFunctions _ _).1

/-- Settles O47: the register written holds `alu_and` or `alu_or` of its value and the immediate. -/
theorem bitwiseImmediateCompletes : Obligations.BitwiseImmediateCompletes := by
  intro s imm h r x hx
  obtain ⟨-, hand, hor⟩ := aluAddAndBitwiseFunctions (s.reg x) imm
  refine ⟨⟨_, withRegOperand_of_namesReg hx _, fun k => ?_, setReg_onlyRegs (by simp) s _⟩,
    ⟨_, withRegOperand_of_namesReg hx _, fun k => ?_, setReg_onlyRegs (by simp) s _⟩⟩
  · rw [State.reg_setReg_same, hand]
  · rw [State.reg_setReg_same, hor]

/-! ### The reserved ADD -/

/-- Settles O48: its meaning is the report alone, and its byte is its whole encoding. -/
theorem reservedAddCompletes : Obligations.ReservedAddCompletes :=
  ⟨fun s => ⟨_, rfl, emit_onlyEvent s _⟩, fun s hm hgo hcode =>
    stepRunsTheDecodedInstruction s _ .add hgo hcode (decodeEncodeAgree _ hm .add [])⟩

end Sys2Proof.Machine
end

/-! The branches: when EQUAL and NOT_EQUAL hold, the branch taken and the branch not taken (43_branch.md). -/

section
namespace Sys2Proof.Machine

/-! ### The derived conditions -/

section Conditions
variable {s : State}

theorem State.equal_eq_true : s.equal = true ↔ s.flag .lessThan = false ∧ s.flag .greaterThan = false := by
  simp [State.equal]

theorem State.notEqual_eq_true : s.notEqual = true ↔ s.flag .lessThan = true ∨ s.flag .greaterThan = true :=
  Bool.or_eq_true_iff

/-- The two derived conditions are opposites, whatever the flags (10_state.md R37). -/
theorem State.notEqual_eq_not_equal (s : State) : s.notEqual = !s.equal := by
  simp [State.notEqual, State.equal]

theorem State.equal_eq_false : s.equal = false ↔ s.flag .lessThan = true ∨ s.flag .greaterThan = true := by
  rw [← State.notEqual_eq_true, State.notEqual_eq_not_equal, Bool.not_eq_true']

theorem State.notEqual_eq_false : s.notEqual = false ↔ s.flag .lessThan = false ∧ s.flag .greaterThan = false := by
  rw [← State.equal_eq_true, State.notEqual_eq_not_equal, Bool.not_eq_false']

end Conditions

/-! ### Taken and not taken -/

/-- The effect of a taken branch is the jump, the clear of both comparison flags, and nothing else
(43_branch.md R190). -/
theorem clearCmpFlags_setReg_pc_branchTaken (s : State) (w : Word) :
    BranchTaken w s (clearCmpFlags (s.setReg .pc w)) := by
  refine ⟨?_, by simp, by simp, by simp [SameOtherFlags], fun r hr => ?_,
    sameMemory_of_mem_eq (by simp), by simp, by simp, by simp⟩
  · rw [clearCmpFlags_reg, State.reg_setReg_same]
  · rw [clearCmpFlags_reg, State.reg_setReg_other s .pc w (List.ne_of_not_mem_cons hr)]

section BranchTo
variable {cond : Bool}

theorem branchTo_of_true (h : cond = true) (w : Word) (s : State) :
    ∃ t, branchTo cond w s = .next t ∧ BranchTaken w s t := by
  subst h
  exact ⟨_, rfl, clearCmpFlags_setReg_pc_branchTaken s w⟩

theorem branchTo_of_false (h : cond = false) (w : Word) (s : State) : branchTo cond w s = .next s := by
  subst h
  rfl

end BranchTo

/-- Settles O52: each of the five is `branchTo` on its own condition, which holds. -/
theorem takenBranchCompletes : Obligations.TakenBranchCompletes :=
  fun s w => ⟨branchTo_of_true rfl w s, fun hlt => branchTo_of_true hlt w s, fun hgt => branchTo_of_true hgt w s,
    fun hlt hgt => branchTo_of_true (State.equal_eq_true.2 ⟨hlt, hgt⟩) w s,
    fun hne => branchTo_of_true (State.notEqual_eq_true.2 hne) w s⟩

/-- Settles O53: each of the four is `branchTo` on its own condition, which fails. -/
theorem untakenBranchChangesNothing : Obligations.UntakenBranchChangesNothing :=
  fun s w => ⟨fun hlt => branchTo_of_false hlt w s, fun hgt => branchTo_of_false hgt w s,
    fun hne => branchTo_of_false (State.equal_eq_false.2 hne) w s,
    fun hlt hgt => branchTo_of_false (State.notEqual_eq_false.2 ⟨hlt, hgt⟩) w s⟩

end Sys2Proof.Machine
end

/-! SYS: what each sub-op does, halting, and toggling the step trace (44_sys.md). -/

section
namespace Sys2Proof.Machine

/-! ### Writing a flag -/

/-- The flag byte is its four flags and its bits 7:4 (10_state.md R36, R46). -/
theorem State.flags_ext {s t : State} (hflag : ∀ f, t.flag f = s.flag f)
    (hhigh : t.flags.extractLsb' 4 4 = s.flags.extractLsb' 4 4) : t.flags = s.flags := by
  apply BitVec.eq_of_getLsbD_eq
  intro i hi
  obtain h4 | h4 := Nat.lt_or_ge i 4
  · obtain rfl | rfl | rfl | rfl : i = 0 ∨ i = 1 ∨ i = 2 ∨ i = 3 := by omega
    exacts [hflag .halt, hflag .stepDebug, hflag .lessThan, hflag .greaterThan]
  · obtain ⟨j, rfl⟩ := Nat.exists_eq_add_of_le h4
    have hj : j < 4 := by omega
    simpa [hj] using congrArg (BitVec.getLsbD · j) hhigh

/-- Two states are equal when their flags, their bits 7:4 and their other fields are. -/
theorem State.ext_flag {s t : State} (hflag : ∀ f, t.flag f = s.flag f)
    (hhigh : t.flags.extractLsb' 4 4 = s.flags.extractLsb' 4 4) (hr : t.regs = s.regs) (hm : t.mem = s.mem)
    (hl : t.log = s.log) (hp : t.params = s.params) : t = s := by
  have hf := State.flags_ext hflag hhigh
  cases s
  cases t
  simp_all

/-- Writing a flag twice keeps the second value. -/
theorem State.setFlag_setFlag_same (s : State) (f : Flag) (v w : Bool) :
    (s.setFlag f v).setFlag f w = s.setFlag f w := by
  refine State.ext_flag (fun g => ?_) (by simp) rfl rfl rfl rfl
  simp only [State.flag_setFlag]
  split <;> rfl

/-- Writing back the value a flag holds changes nothing. -/
theorem State.setFlag_flag_self (s : State) (f : Flag) : s.setFlag f (s.flag f) = s := by
  refine State.ext_flag (fun g => ?_) (by simp) rfl rfl rfl rfl
  rw [State.flag_setFlag]
  split
  · rename_i h
    rw [h]
  · rfl

/-! ### The sub-ops -/

theorem execSys_halt (s : State) : execSys 0x00#8 s = .next (s.setFlag .halt true) := rfl

theorem execSys_toggle (s : State) : execSys 0x02#8 s = .next (s.setFlag .stepDebug (!s.flag .stepDebug)) := rfl

theorem execSys_other {n : Byte} (hn : 3 ≤ n.toNat) (s : State) : execSys n s = .next s := by
  have hne (k : Byte) (hk : k.toNat < 3) : n ≠ k := fun h => absurd (h ▸ hn) (Nat.not_le.2 hk)
  rw [execSys, if_neg (hne _ (by decide)), if_neg (hne _ (by decide)), if_neg (hne _ (by decide))]

/-- The bytes 0x04 and n are the encoding of SYS n, in every map (30_encoding.md R81, R86). -/
theorem step_sys {s : State} {n : Byte} (hm : s.params.opcodeMap.wf = true) (hgo : LoopGoesOn s)
    (hcode : CodeAt s [0x04#8, n]) : step s = execSys n (afterFetch s 2) :=
  stepRunsTheDecodedInstruction s _ (.sys n) hgo hcode (decodeEncodeAgree _ hm (.sys n) [])

/-- Settles O56. -/
theorem sysPutCharacterEmits : Obligations.SysPutCharacterEmits :=
  fun s => ⟨_, execSys_putCharacter s, loByte_eq_ofNat (s.reg .x0) ▸ emit_onlyEvent s _⟩

/-- Settles O58: none of the three tests of SYS meets a sub-op of 3 and above. -/
theorem sysOtherDoesNothing : Obligations.SysOtherDoesNothing :=
  fun s _ hn => ⟨execSys_other hn s, fun hm hgo hcode => (step_sys hm hgo hcode).trans (execSys_other hn _)⟩

/-- Settles O57: inverting twice writes back the flag's own value. -/
theorem sysToggleInvertsStepDebug : Obligations.SysToggleInvertsStepDebug := by
  refine fun s => ⟨_, execSys_toggle s, by simp, by simp, by simp, by simp, by simp, fun r _ => by simp,
    setFlag_sameMemLogParams s _ _, ?_⟩
  refine (execSys_toggle _).trans (congrArg _ ?_)
  rw [State.flag_setFlag_same, Bool.not_not, State.setFlag_setFlag_same, State.setFlag_flag_self]

/-- HALT ends the run at the next loop test (40_fetch_decode.md R120). -/
theorem step_of_halt {s : State} (h : s.flag .halt = true) : step s = .fault .halted :=
  step_of_loopTest (loopTest_halted.2 h)

/-- No instruction clears HALT (44_sys.md R211). -/
theorem exec_keeps_halt {i : Instr} {s t : State} (hs : s.flag .halt = true) (h : exec i s = .next t) :
    t.flag .halt = true := by
  rw [exec_halt_flag h, hs, ite_self]

/-- Settles O55: SYS 0x00 writes the flag HALT, which the next loop test finds and which no instruction clears. -/
theorem sysHaltSetsHalt : Obligations.SysHaltSetsHalt := by
  intro s
  have hset : (s.setFlag .halt true).flag .halt = true := State.flag_setFlag_same s .halt true
  have hagain (hs : s.flag .halt = true) : s.setFlag .halt true = s := by rw [← hs, State.setFlag_flag_self]
  exact ⟨⟨_, execSys_halt s, hset, by simp, by simp, by simp, by simp, fun r _ => by simp,
    setFlag_sameMemLogParams s _ _, hagain, step_of_halt hset, fun _ _ => exec_keeps_halt hset⟩, step_sys⟩

end Sys2Proof.Machine
end

/-! Reset, loading, the launch and the host's moves around a run (70_reset_and_hazards.md). -/

section
namespace Sys2Proof.Machine

/-! ### Creation and reset -/

/-- Every byte of a created machine is 0 (10_state.md R40). -/
theorem State.created_byteAt (l : Launch) (a : Nat) :
    (State.created l).byteAt a = if a < l.memSize.val then some 0 else none := rfl

/-- A created machine meets the invariant, since its flags are those of reset. -/
theorem State.created_inv (l : Launch) : (State.created l).Inv := ⟨State.created_wf l, resetMeetsTheInvariant.2⟩

/-- Settles O28. -/
theorem resetState : Obligations.ResetState :=
  ⟨fun r => by cases r <;> rfl, rfl, rfl, rfl, State.created_byteAt defaultLaunch⟩

/-! ### Loading -/

section LoadBytes
variable (bs : List Byte) (a : Nat) (s : State)

@[simp] theorem loadBytes_regs : (loadBytes bs a s).regs = s.regs := (loadBytes_frame bs a s).1
@[simp] theorem loadBytes_flags : (loadBytes bs a s).flags = s.flags := (loadBytes_frame bs a s).2.1
@[simp] theorem loadBytes_memSize : (loadBytes bs a s).memSize = s.memSize := (loadBytes_frame bs a s).2.2.1
@[simp] theorem loadBytes_log : (loadBytes bs a s).log = s.log := (loadBytes_frame bs a s).2.2.2.1
@[simp] theorem loadBytes_params : (loadBytes bs a s).params = s.params := (loadBytes_frame bs a s).2.2.2.2

@[simp] theorem loadBytes_reg (r : Reg) : (loadBytes bs a s).reg r = s.reg r := by
  cases r <;> simp only [State.reg, loadBytes_regs]

end LoadBytes

section Load
variable {bs : List Byte} {a : Nat} {s : State}

/-- A load that fits keeps the invariant, which speaks of memory's form and of the flags. -/
theorem State.Inv.loadBytes (hs : s.Inv) (hfit : a + bs.length ≤ s.memSize) : (Machine.loadBytes bs a s).Inv := by
  obtain ⟨hm, hflags⟩ := hs
  refine ⟨loadBytes_wf bs a s hm hfit, ?_⟩
  simpa only [State.flagsLegal, State.flag, loadBytes_flags] using hflags

/-- A load reaches no byte outside the image's place. -/
theorem loadBytes_byteAt_outside (hm : s.mem.wf) (hfit : a + bs.length ≤ s.memSize) {j : Nat}
    (hj : j < a ∨ a + bs.length ≤ j) : (loadBytes bs a s).byteAt j = s.byteAt j := by
  induction bs generalizing a s with
  | nil => rfl
  | cons b bs ih =>
    rw [List.length_cons] at hfit hj
    have ha : a < s.memSize := by omega
    have hrest : (loadBytes (b :: bs) a s).byteAt j = (s.putByte a b).byteAt j :=
      ih (State.putByte_wf hm ha b) (by rw [State.putByte_memSize]; omega) (by omega)
    rw [hrest, State.byteAt_putByte hm, if_neg (show j ≠ a by omega)]
    split
    · rfl
    · exact (State.byteAt_eq_none.2 (by omega)).symm

/-- The image's byte `k` stands `k` past the address of the load: the bytes after it are put elsewhere. -/
theorem loadBytes_byteAt_image (hm : s.mem.wf) (hfit : a + bs.length ≤ s.memSize) {k : Nat} (hk : k < bs.length) :
    (loadBytes bs a s).byteAt (a + k) = some bs[k] := by
  induction bs generalizing a s k with
  | nil => exact absurd hk (Nat.not_lt_zero k)
  | cons b bs ih =>
    rw [List.length_cons] at hfit hk
    have ha : a < s.memSize := by omega
    have hm' := State.putByte_wf hm ha b
    have hfit' : a + 1 + bs.length ≤ (s.putByte a b).memSize := by rw [State.putByte_memSize]; omega
    cases k with
    | zero =>
      calc (loadBytes bs (a + 1) (s.putByte a b)).byteAt a
          = (s.putByte a b).byteAt a := loadBytes_byteAt_outside hm' hfit' (by omega)
        _ = some b := by rw [State.byteAt_putByte hm, if_pos ha, if_pos rfl]
    | succ k =>
      calc (loadBytes bs (a + 1) (s.putByte a b)).byteAt (a + (k + 1))
          = (loadBytes bs (a + 1) (s.putByte a b)).byteAt (a + 1 + k) := congrArg _ (by omega)
        _ = some bs[k] := ih hm' hfit' (Nat.lt_of_succ_lt_succ hk)

theorem loadImage_of_fits (hfit : a + bs.length ≤ s.memSize) : loadImage a bs s = .next (loadBytes bs a s) :=
  if_pos hfit

end Load

/-- Settles O29. -/
theorem loadCopiesTheImage : Obligations.LoadCopiesTheImage := fun addr image s hm hfit =>
  ⟨_, loadImage_of_fits hfit, fun _ => loadBytes_byteAt_image hm hfit, fun _ => loadBytes_byteAt_outside hm hfit,
    fun r _ => loadBytes_reg image addr s r, by simp, by simp, by simp, by simp⟩

/-- Settles O30. -/
theorem oversizedImageIsRefused : Obligations.OversizedImageIsRefused :=
  fun _ _ _ hbig => if_neg (Nat.not_le.2 hbig)

/-! ### The launch -/

theorem Launch.wf_iff {l : Launch} : l.wf = true ↔ l.loadAddr + l.image.length ≤ (State.created l).memSize :=
  decide_eq_true_iff

/-- A byte after a launch: the image's at its place, the 0 of creation elsewhere (70_reset_and_hazards.md R276). -/
theorem loadBytes_created_byteAt {l : Launch} (hfit : l.loadAddr + l.image.length ≤ (State.created l).memSize) {a : Nat}
    (ha : a < l.memSize.val) : (loadBytes l.image l.loadAddr (State.created l)).byteAt a =
      some (if l.loadAddr ≤ a then l.image.getD (a - l.loadAddr) 0 else 0) := by
  have houtside (h : a < l.loadAddr ∨ l.loadAddr + l.image.length ≤ a) :
      (loadBytes l.image l.loadAddr (State.created l)).byteAt a = some 0 := by
    rw [loadBytes_byteAt_outside (State.created_wf l) hfit h, State.created_byteAt, if_pos ha]
  split
  · rename_i hle
    obtain ⟨k, rfl⟩ := Nat.exists_eq_add_of_le hle
    rw [Nat.add_sub_cancel_left]
    rcases Nat.lt_or_ge k l.image.length with hk | hk
    · rw [loadBytes_byteAt_image (State.created_wf l) hfit hk, List.getD_eq_getElem _ _ hk]
    · rw [houtside (.inr (Nat.add_le_add_left hk _)), List.getD_eq_default _ _ hk]
  · exact houtside (.inl (by omega))

/-- Settles O31: a launch that fits loads the created machine, and the load changes bytes alone. -/
theorem launchIsTheCleanEntryState : Obligations.LaunchIsTheCleanEntryState := by
  intro l hl
  have hfit := Launch.wf_iff.1 hl
  refine ⟨_, loadImage_of_fits hfit, fun r hsp hbp => ?_, by rw [loadBytes_reg]; rfl, by rw [loadBytes_reg]; rfl,
    by rw [loadBytes_flags]; rfl, by rw [loadBytes_log]; rfl, by rw [loadBytes_params]; rfl,
    by rw [loadBytes_memSize]; rfl, (State.created_inv l).loadBytes hfit, fun _ => loadBytes_created_byteAt hfit⟩
  rw [loadBytes_reg]
  cases r with
  | sp => exact absurd rfl hsp
  | bp => exact absurd rfl hbp
  | x0 | x1 | x2 | x3 | pc => rfl

/-! ### The host's moves -/

/-- Seeding sp and setting bp of a machine created with both at 0 gives the machine a launch loads. -/
theorem create_seeded_eq_created (l : Launch) (n : Nat) :
    ((Session.create l.memSize l.params n).machine.setReg .sp l.spInit).setReg .bp l.bpInit = State.created l := rfl

theorem loadMove_of_loadImage {addr : Nat} {image : List Byte} {c : Session} {t : State}
    (h : loadImage addr image c.machine = .next t) :
    loadMove addr image c = .next { phase := .loaded, machine := t, seed := c.seed } := by
  simp [loadMove, h]

/-- Settles O32: the load finds the machine that the launch creates. -/
theorem hostMovesReachTheLaunch : Obligations.HostMovesReachTheLaunch := by
  intro l n t h
  rw [launch, ← create_seeded_eq_created l n] at h
  exact ⟨_, ⟨.bpSet, _, n⟩, _, _, rfl, rfl, loadMove_of_loadImage h, rfl, rfl⟩

/-- Everything a move of the host can answer: in its place in the entry contract it is taken, a load too large is
refused by its own name, and any move may be refused for its place (70_reset_and_hazards.md R262, R264, R275). -/
inductive HostMoveEffect : HostMove → Session → Host.Outcome Session Fault Refusal → Prop where
  | seedSp {c : Session} (v : Word) (hc : c.phase = .created) :
    HostMoveEffect (.seedSp v) c (.next { c with phase := .spSeeded, machine := c.machine.setReg .sp v })
  | setBp {c : Session} (v : Word) (hc : c.phase = .spSeeded) :
    HostMoveEffect (.setBp v) c (.next { c with phase := .bpSet, machine := c.machine.setReg .bp v })
  | load {c : Session} (addr : Nat) (image : List Byte) (hc : c.phase = .spSeeded ∨ c.phase = .bpSet) :
    HostMoveEffect (.load addr image) c
      (.next { c with phase := .loaded, machine := loadBytes image addr c.machine })
  | tooLarge {c : Session} (addr : Nat) (image : List Byte) (hc : c.phase = .spSeeded ∨ c.phase = .bpSet)
    (hbig : c.machine.memSize < addr + image.length) :
    HostMoveEffect (.load addr image) c (.refused .launchImageTooLarge)
  | startRun {c : Session} (hc : c.phase = .loaded) : HostMoveEffect .startRun c (.next { c with phase := .running })
  | read {c : Session} (f : Fault) (hc : c.phase = .ended f) : HostMoveEffect .read c (.next c)
  | release {c : Session} (f : Fault) (hc : c.phase = .ended f) :
    HostMoveEffect .release c (.next { c with phase := .released })
  | outOfPlace (mv : HostMove) (c : Session) :
    HostMoveEffect mv c (.refused (if c.phase = .running then .hostAccessDuringRun else .hostOutsideContract))

theorem loadMove_effect (addr : Nat) (image : List Byte) {c : Session} (hc : c.phase = .spSeeded ∨ c.phase = .bpSet) :
    HostMoveEffect (.load addr image) c (loadMove addr image c) := by
  rcases loadMove_cases addr image c with ⟨-, h⟩ | ⟨hbig, h⟩
  · exact h ▸ .load addr image hc
  · exact h ▸ .tooLarge addr image hc hbig

theorem hostMove_effect (mv : HostMove) (c : Session) : HostMoveEffect mv c (hostMove mv c) := by
  obtain ⟨phase, m, n⟩ := c
  cases phase with
  | created =>
    cases mv with
    | seedSp v => exact .seedSp v rfl
    | _ => exact .outOfPlace _ _
  | spSeeded =>
    cases mv with
    | setBp v => exact .setBp v rfl
    | load addr image => exact loadMove_effect addr image (.inl rfl)
    | _ => exact .outOfPlace _ _
  | bpSet =>
    cases mv with
    | load addr image => exact loadMove_effect addr image (.inr rfl)
    | _ => exact .outOfPlace _ _
  | loaded =>
    cases mv with
    | startRun => exact .startRun rfl
    | _ => exact .outOfPlace _ _
  | ended f =>
    cases mv with
    | read => exact .read f rfl
    | release => exact .release f rfl
    | _ => exact .outOfPlace _ _
  | running | released => exact .outOfPlace _ _

/-- Settles O33: each part picks out of `HostMoveEffect` the answers of its kind. -/
theorem hostMovesKeepTheirOrder : Obligations.HostMovesKeepTheirOrder := by
  intro c mv
  have heffect := hostMove_effect mv c
  refine ⟨fun d h => ?_, fun f h => ?_, fun r h => ?_⟩ <;> rw [h] at heffect
  · cases heffect with
    | seedSp v hc | setBp v hc | startRun hc | read f hc | release f hc => simp [hc]
    | load addr image hc => rcases hc with hc | hc <;> simp [hc]
  · cases heffect
  · cases heffect with
    | tooLarge addr image hc hbig => exact .inr ⟨rfl, hc, addr, image, rfl, hbig⟩
    | outOfPlace => exact .inl rfl

end Sys2Proof.Machine
end
